-- ==== Sys2Proof/Word.lean ====
section
/-! DEFINITION. The fixed-width values of the block (spec/00_scope.md rules R12 to R14): every one is unsigned, bit 0 is the least significant. -/

namespace Sys2Proof

/-- One byte: an ingested byte, an `OUT` byte, a ROM index, a host read address (R13, R40). -/
abbrev Byte := BitVec 8

/-- A 64-bit value: `ACC`, a ROM entry, `DATA`, the working form `W` (R12 `ACC_WIDTH`, `TABLE_WIDTH`, `DATA_WIDTH`). -/
abbrev Word := BitVec 64

/-- The 16-bit command word `CMD` (R12 `CMD_WIDTH`, R60). -/
abbrev CmdWord := BitVec 16

/-- A four-bit field of `CMD` or hexadecimal digit value (R61, R113). -/
abbrev Nibble := BitVec 4

end Sys2Proof
end

