-- ==== Sys2Proof/Config.lean ====
section
/-! DEFINITION. The implementation parameters of the block as configuration fields (spec/00_scope.md rule R12, spec/10_state.md rule R20). -/

namespace Sys2Proof

/-- The parameters of rule R12, each a field with R12's value as the default of every size. They are fixed when the block
is built and are no state (R20). The values this hardware takes are `Sys2Proof.Machine.hw`. -/
structure Config where
  /-- `ACC_WIDTH` in bits (R12, R21). -/
  accWidth : Nat := 64
  /-- `TABLE_ENTRIES` (R12, R29). -/
  tableEntries : Nat := 256
  /-- `TABLE_WIDTH` in bits (R12, R29). -/
  tableWidth : Nat := 64
  /-- `CMD_WIDTH` in bits (R12, R60). -/
  cmdWidth : Nat := 16
  /-- `DATA_WIDTH` in bits (R12, R60). -/
  dataWidth : Nat := 64
  /-- `OUT_BYTES` (R12, R26). -/
  outBytes : Nat := 16
  /-- The sizes are those of the types that store the values, `Word`, `CmdWord` and `Vector Byte 16`: the other rules hold
  for these sizes only (DESIGN CHOICE, safe: notes/assumptions/9.md). -/
  storage : accWidth = 64 ∧ tableEntries = 256 ∧ tableWidth = 64 ∧ cmdWidth = 16 ∧ dataWidth = 64 ∧ outBytes = 16 := by decide
  /-- `POLY`, least-significant-bit-first convention (R2, R12). -/
  poly : Word
  /-- `ROM_TABLE`, the entries of the table ROM (R29, R82; OPEN parameter D8). -/
  romTable : Vector Word tableEntries
  /-- `ACC_INIT` (R12, R21). -/
  accInit : Word
  /-- `FLIP_MASK` (R12, R90). -/
  flipMask : Word
  /-- `INGW_MAX`, the most bytes one INGW ingests (R12, R63). -/
  ingwMax : Nat
  /-- `HEX_PAD`: is the hex digest zero-padded to 16 digits (R12, R113; OPEN parameter D7). -/
  hexPad : Bool
  /-- `SEL_BUFFER` (R12, R116). -/
  selBuffer : Nibble
  /-- `SEL_HEX` (R12, R116). -/
  selHex : Nibble
  /-- `SEL_BASE64` (R12, R116). -/
  selBase64 : Nibble
  deriving DecidableEq, Repr

@[simp] theorem Config.accWidth_eq (c : Config) : c.accWidth = 64 := c.storage.1
@[simp] theorem Config.tableEntries_eq (c : Config) : c.tableEntries = 256 := c.storage.2.1
@[simp] theorem Config.tableWidth_eq (c : Config) : c.tableWidth = 64 := c.storage.2.2.1
@[simp] theorem Config.cmdWidth_eq (c : Config) : c.cmdWidth = 16 := c.storage.2.2.2.1
@[simp] theorem Config.dataWidth_eq (c : Config) : c.dataWidth = 64 := c.storage.2.2.2.2.1
@[simp] theorem Config.outBytes_eq (c : Config) : c.outBytes = 16 := c.storage.2.2.2.2.2

end Sys2Proof
end

