-- ==== Sys2Proof/Machine/RomImage.lean ====
section
/-! DEFINITION. The ROM image: the 256 entries of spec/40_table.md rule R82, transcribed in sixteen rows of sixteen. -/

namespace Sys2Proof.Machine

/-- R82, entries `0x00` to `0x0F`. -/
def romRow0 : List Word :=
  [0x0000000000000000, 0x7F6EF0C830358979, 0xFEDDE190606B12F2, 0x81B31158505E9B8B,
   0xC962E5739841B68F, 0xB60C15BBA8743FF6, 0x37BF04E3F82AA47D, 0x48D1F42BC81F2D04,
   0xA61CECB46814FE75, 0xD9721C7C5821770C, 0x58C10D24087FEC87, 0x27AFFDEC384A65FE,
   0x6F7E09C7F05548FA, 0x1010F90FC060C183, 0x91A3E857903E5A08, 0xEECD189FA00BD371]

/-- R82, entries `0x10` to `0x1F`. -/
def romRow1 : List Word :=
  [0x78E0FF3B88BE6F81, 0x078E0FF3B88BE6F8, 0x863D1EABE8D57D73, 0xF953EE63D8E0F40A,
   0xB1821A4810FFD90E, 0xCEECEA8020CA5077, 0x4F5FFBD87094CBFC, 0x30310B1040A14285,
   0xDEFC138FE0AA91F4, 0xA192E347D09F188D, 0x2021F21F80C18306, 0x5F4F02D7B0F40A7F,
   0x179EF6FC78EB277B, 0x68F0063448DEAE02, 0xE943176C18803589, 0x962DE7A428B5BCF0]

/-- R82, entries `0x20` to `0x2F`. -/
def romRow2 : List Word :=
  [0xF1C1FE77117CDF02, 0x8EAF0EBF2149567B, 0x0F1C1FE77117CDF0, 0x7072EF2F41224489,
   0x38A31B04893D698D, 0x47CDEBCCB908E0F4, 0xC67EFA94E9567B7F, 0xB9100A5CD963F206,
   0x57DD12C379682177, 0x28B3E20B495DA80E, 0xA900F35319033385, 0xD66E039B2936BAFC,
   0x9EBFF7B0E12997F8, 0xE1D10778D11C1E81, 0x606216208142850A, 0x1F0CE6E8B1770C73]

/-- R82, entries `0x30` to `0x3F`. -/
def romRow3 : List Word :=
  [0x8921014C99C2B083, 0xF64FF184A9F739FA, 0x77FCE0DCF9A9A271, 0x08921014C99C2B08,
   0x4043E43F0183060C, 0x3F2D14F731B68F75, 0xBE9E05AF61E814FE, 0xC1F0F56751DD9D87,
   0x2F3DEDF8F1D64EF6, 0x50531D30C1E3C78F, 0xD1E00C6891BD5C04, 0xAE8EFCA0A188D57D,
   0xE65F088B6997F879, 0x9931F84359A27100, 0x1882E91B09FCEA8B, 0x67EC19D339C963F2]

/-- R82, entries `0x40` to `0x4F`. -/
def romRow4 : List Word :=
  [0xD75ADABD7A6E2D6F, 0xA8342A754A5BA416, 0x29873B2D1A053F9D, 0x56E9CBE52A30B6E4,
   0x1E383FCEE22F9BE0, 0x6156CF06D21A1299, 0xE0E5DE5E82448912, 0x9F8B2E96B271006B,
   0x71463609127AD31A, 0x0E28C6C1224F5A63, 0x8F9BD7997211C1E8, 0xF0F5275142244891,
   0xB824D37A8A3B6595, 0xC74A23B2BA0EECEC, 0x46F932EAEA507767, 0x3997C222DA65FE1E]

/-- R82, entries `0x50` to `0x5F`. -/
def romRow5 : List Word :=
  [0xAFBA2586F2D042EE, 0xD0D4D54EC2E5CB97, 0x5167C41692BB501C, 0x2E0934DEA28ED965,
   0x66D8C0F56A91F461, 0x19B6303D5AA47D18, 0x980521650AFAE693, 0xE76BD1AD3ACF6FEA,
   0x09A6C9329AC4BC9B, 0x76C839FAAAF135E2, 0xF77B28A2FAAFAE69, 0x8815D86ACA9A2710,
   0xC0C42C4102850A14, 0xBFAADC8932B0836D, 0x3E19CDD162EE18E6, 0x41773D1952DB919F]

/-- R82, entries `0x60` to `0x6F`. -/
def romRow6 : List Word :=
  [0x269B24CA6B12F26D, 0x59F5D4025B277B14, 0xD846C55A0B79E09F, 0xA72835923B4C69E6,
   0xEFF9C1B9F35344E2, 0x90973171C366CD9B, 0x1124202993385610, 0x6E4AD0E1A30DDF69,
   0x8087C87E03060C18, 0xFFE938B633338561, 0x7E5A29EE636D1EEA, 0x0134D92653589793,
   0x49E52D0D9B47BA97, 0x368BDDC5AB7233EE, 0xB738CC9DFB2CA865, 0xC8563C55CB19211C]

/-- R82, entries `0x70` to `0x7F`. -/
def romRow7 : List Word :=
  [0x5E7BDBF1E3AC9DEC, 0x21152B39D3991495, 0xA0A63A6183C78F1E, 0xDFC8CAA9B3F20667,
   0x97193E827BED2B63, 0xE877CE4A4BD8A21A, 0x69C4DF121B863991, 0x16AA2FDA2BB3B0E8,
   0xF86737458BB86399, 0x8709C78DBB8DEAE0, 0x06BAD6D5EBD3716B, 0x79D4261DDBE6F812,
   0x3105D23613F9D516, 0x4E6B22FE23CC5C6F, 0xCFD833A67392C7E4, 0xB0B6C36E43A74E9D]

/-- R82, entries `0x80` to `0x8F`. -/
def romRow8 : List Word :=
  [0x9A6C9329AC4BC9B5, 0xE50263E19C7E40CC, 0x64B172B9CC20DB47, 0x1BDF8271FC15523E,
   0x530E765A340A7F3A, 0x2C608692043FF643, 0xADD397CA54616DC8, 0xD2BD67026454E4B1,
   0x3C707F9DC45F37C0, 0x431E8F55F46ABEB9, 0xC2AD9E0DA4342532, 0xBDC36EC59401AC4B,
   0xF5129AEE5C1E814F, 0x8A7C6A266C2B0836, 0x0BCF7B7E3C7593BD, 0x74A18BB60C401AC4]

/-- R82, entries `0x90` to `0x9F`. -/
def romRow9 : List Word :=
  [0xE28C6C1224F5A634, 0x9DE29CDA14C02F4D, 0x1C518D82449EB4C6, 0x633F7D4A74AB3DBF,
   0x2BEE8961BCB410BB, 0x548079A98C8199C2, 0xD53368F1DCDF0249, 0xAA5D9839ECEA8B30,
   0x449080A64CE15841, 0x3BFE706E7CD4D138, 0xBA4D61362C8A4AB3, 0xC52391FE1CBFC3CA,
   0x8DF265D5D4A0EECE, 0xF29C951DE49567B7, 0x732F8445B4CBFC3C, 0x0C41748D84FE7545]

/-- R82, entries `0xA0` to `0xAF`. -/
def romRowA : List Word :=
  [0x6BAD6D5EBD3716B7, 0x14C39D968D029FCE, 0x95708CCEDD5C0445, 0xEA1E7C06ED698D3C,
   0xA2CF882D2576A038, 0xDDA178E515432941, 0x5C1269BD451DB2CA, 0x237C997575283BB3,
   0xCDB181EAD523E8C2, 0xB2DF7122E51661BB, 0x336C607AB548FA30, 0x4C0290B2857D7349,
   0x04D364994D625E4D, 0x7BBD94517D57D734, 0xFA0E85092D094CBF, 0x856075C11D3CC5C6]

/-- R82, entries `0xB0` to `0xBF`. -/
def romRowB : List Word :=
  [0x134D926535897936, 0x6C2362AD05BCF04F, 0xED9073F555E26BC4, 0x92FE833D65D7E2BD,
   0xDA2F7716ADC8CFB9, 0xA54187DE9DFD46C0, 0x24F29686CDA3DD4B, 0x5B9C664EFD965432,
   0xB5517ED15D9D8743, 0xCA3F8E196DA80E3A, 0x4B8C9F413DF695B1, 0x34E26F890DC31CC8,
   0x7C339BA2C5DC31CC, 0x035D6B6AF5E9B8B5, 0x82EE7A32A5B7233E, 0xFD808AFA9582AA47]

/-- R82, entries `0xC0` to `0xCF`. -/
def romRowC : List Word :=
  [0x4D364994D625E4DA, 0x3258B95CE6106DA3, 0xB3EBA804B64EF628, 0xCC8558CC867B7F51,
   0x8454ACE74E645255, 0xFB3A5C2F7E51DB2C, 0x7A894D772E0F40A7, 0x05E7BDBF1E3AC9DE,
   0xEB2AA520BE311AAF, 0x944455E88E0493D6, 0x15F744B0DE5A085D, 0x6A99B478EE6F8124,
   0x224840532670AC20, 0x5D26B09B16452559, 0xDC95A1C3461BBED2, 0xA3FB510B762E37AB]

/-- R82, entries `0xD0` to `0xDF`. -/
def romRowD : List Word :=
  [0x35D6B6AF5E9B8B5B, 0x4AB846676EAE0222, 0xCB0B573F3EF099A9, 0xB465A7F70EC510D0,
   0xFCB453DCC6DA3DD4, 0x83DAA314F6EFB4AD, 0x0269B24CA6B12F26, 0x7D0742849684A65F,
   0x93CA5A1B368F752E, 0xECA4AAD306BAFC57, 0x6D17BB8B56E467DC, 0x12794B4366D1EEA5,
   0x5AA8BF68AECEC3A1, 0x25C64FA09EFB4AD8, 0xA4755EF8CEA5D153, 0xDB1BAE30FE90582A]

/-- R82, entries `0xE0` to `0xEF`. -/
def romRowE : List Word :=
  [0xBCF7B7E3C7593BD8, 0xC399472BF76CB2A1, 0x422A5673A732292A, 0x3D44A6BB9707A053,
   0x759552905F188D57, 0x0AFBA2586F2D042E, 0x8B48B3003F739FA5, 0xF42643C80F4616DC,
   0x1AEB5B57AF4DC5AD, 0x6585AB9F9F784CD4, 0xE436BAC7CF26D75F, 0x9B584A0FFF135E26,
   0xD389BE24370C7322, 0xACE74EEC0739FA5B, 0x2D545FB4576761D0, 0x523AAF7C6752E8A9]

/-- R82, entries `0xF0` to `0xFF`. -/
def romRowF : List Word :=
  [0xC41748D84FE75459, 0xBB79B8107FD2DD20, 0x3ACAA9482F8C46AB, 0x45A459801FB9CFD2,
   0x0D75ADABD7A6E2D6, 0x721B5D63E7936BAF, 0xF3A84C3BB7CDF024, 0x8CC6BCF387F8795D,
   0x620BA46C27F3AA2C, 0x1D6554A417C62355, 0x9CD645FC4798B8DE, 0xE3B8B53477AD31A7,
   0xAB69411FBFB21CA3, 0xD407B1D78F8795DA, 0x55B4A08FDFD90E51, 0x2ADA5047EFEC8728]

/-- R82: all 256 entries in index order. -/
def romEntries : List Word :=
  romRow0 ++ romRow1 ++ romRow2 ++ romRow3 ++ romRow4 ++ romRow5 ++ romRow6 ++ romRow7 ++
    romRow8 ++ romRow9 ++ romRowA ++ romRowB ++ romRowC ++ romRowD ++ romRowE ++ romRowF

/-- R29, R82: the table ROM, exactly 256 entries indexed 0..255. -/
def romImage : Vector Word 256 := ⟨romEntries.toArray, by decide +kernel⟩

end Sys2Proof.Machine
end

