-- ==== Sys2Proof/Machine/Params.lean ====
section
/-! DEFINITION. The parameter values this hardware takes (spec/00_scope.md rule R12). -/

namespace Sys2Proof.Machine

/-- The configuration of this hardware, value for value the table of rule R12; `HEX_PAD` is D7's value, `ROM_TABLE` is
D8's (UNVERIFIED against the repository, as the spec itself says; unsafe: notes/assumptions/8.md). -/
def hw : Config where
  accWidth := 64
  tableEntries := 256
  tableWidth := 64
  cmdWidth := 16
  dataWidth := 64
  outBytes := 16
  poly := 0x9A6C9329AC4BC9B5
  romTable := romImage
  accInit := 0x0000000000000000
  flipMask := 0xFFFFFFFFFFFFFFFF
  ingwMax := 8
  hexPad := false
  selBuffer := 0
  selHex := 1
  selBase64 := 2

end Sys2Proof.Machine
end

