-- ==== Sys2Proof/Syntax.lean ====
section
/-! DEFINITION. The command set CRC64-CMD v1 as syntax: one constructor per row of spec/opcode_table.json (spec/30_encoding.md rules R63 to R66). -/

namespace Sys2Proof

/-- A decoded command. The five rows that are illegal commands keep the command word, as R65's `Illegal(CMD)` does
(DESIGN CHOICE, safe: notes/assumptions/6.md); every other row keeps exactly the operands of R63. -/
inductive Instr where
  /-- NOP (R130). -/
  | nop
  /-- CLEAR (R131). -/
  | clear
  /-- INGB: ingest one byte (R95). -/
  | ingb (byte : Byte)
  /-- INGW: ingest the `n` low byte lanes of `data`, lane 0 first (R97). -/
  | ingw (n : Nibble) (data : Word)
  /-- FIN: finalize into the encoding `sel` selects (R110). -/
  | fin (sel : Nibble)
  /-- TBLRD: read ROM entry `idx` (R85). -/
  | tblrd (idx : Byte)
  /-- Illegal INGW with `N` = 9 (R66). -/
  | illegalIngwN9 (cmd : CmdWord)
  /-- Illegal INGW with `N` = 10 or 11 (R66). -/
  | illegalIngwN10to11 (cmd : CmdWord)
  /-- Illegal INGW with `N` = 12..15 (R66). -/
  | illegalIngwN12to15 (cmd : CmdWord)
  /-- Reserved opcodes `0x6`, `0x7` (R132). -/
  | reservedOp6to7 (cmd : CmdWord)
  /-- Reserved opcodes `0x8`..`0xF` (R132). -/
  | reservedOp8toF (cmd : CmdWord)
  deriving DecidableEq, Repr

/-- The command word of an illegal command, R65's `Illegal(CMD)`; `none` for the six legal commands. -/
def Instr.illegalWord : Instr → Option CmdWord
  | .nop => none
  | .clear => none
  | .ingb _ => none
  | .ingw _ _ => none
  | .fin _ => none
  | .tblrd _ => none
  | .illegalIngwN9 cmd => some cmd
  | .illegalIngwN10to11 cmd => some cmd
  | .illegalIngwN12to15 cmd => some cmd
  | .reservedOp6to7 cmd => some cmd
  | .reservedOp8toF cmd => some cmd

end Sys2Proof
end

