-- ==== Sys2Proof/Decode.lean ====
section
/-! DEFINITION. The decoder of spec/30_encoding.md rule R65, total on all command words and data words, and after it the encoder (R64, R69). -/

namespace Sys2Proof

/-- `OP = CMD[15:12]` (R61). -/
def cmdOp (cmd : CmdWord) : Nibble := cmd.extractLsb' 12 4

/-- `A = CMD[11:8]`: `N` of INGW, `SEL` of FIN (R61, R63). -/
def cmdA (cmd : CmdWord) : Nibble := cmd.extractLsb' 8 4

/-- `B = CMD[7:0]`: `BYTE` of INGB, `IDX` of TBLRD (R61, R63). -/
def cmdB (cmd : CmdWord) : Byte := cmd.extractLsb' 0 8

/-- The row of an INGW word whose count is above `INGW_MAX` (R66, the three rows that take precedence over INGW). -/
def decodeIllegalIngw (cmd : CmdWord) : Instr :=
  if cmdA cmd = 9#4 then .illegalIngwN9 cmd
  else if cmdA cmd ≤ 11#4 then .illegalIngwN10to11 cmd
  else .illegalIngwN12to15 cmd

/-- The row of a word with a reserved opcode (R65, R66). -/
def decodeReserved (cmd : CmdWord) : Instr :=
  if cmdOp cmd ≤ 7#4 then .reservedOp6to7 cmd else .reservedOp8toF cmd

/-- R65 for a configuration: decoding by `OP` alone, total on all 2^16 × 2^64 inputs; what the source's format never
produces is an illegal command of its own name, not a gap. -/
def decodeOf (c : Config) (cmd : CmdWord) (data : Word) : Instr :=
  if cmdOp cmd = 0x0#4 then .nop
  else if cmdOp cmd = 0x1#4 then .clear
  else if cmdOp cmd = 0x2#4 then .ingb (cmdB cmd)
  else if cmdOp cmd = 0x3#4 then
    if (cmdA cmd).toNat ≤ c.ingwMax then .ingw (cmdA cmd) data else decodeIllegalIngw cmd
  else if cmdOp cmd = 0x4#4 then .fin (cmdA cmd)
  else if cmdOp cmd = 0x5#4 then .tblrd (cmdB cmd)
  else decodeReserved cmd

/-- The decoder of this hardware (R65). -/
def decode (cmd : CmdWord) (data : Word) : Instr := decodeOf Machine.hw cmd data

/-- The canonical `CMD` and `DATA` of a command: ignored bits zero (R62, R69); an illegal command's own word. -/
def encode : Instr → CmdWord × Word
  | .nop => (0x0000, 0)
  | .clear => (0x1000, 0)
  | .ingb byte => (0x2000#16 ||| byte.setWidth 16, 0)
  | .ingw n data => (0x3000#16 ||| n.setWidth 16 <<< 8, data)
  | .fin sel => (0x4000#16 ||| sel.setWidth 16 <<< 8, 0)
  | .tblrd idx => (0x5000#16 ||| idx.setWidth 16, 0)
  | .illegalIngwN9 cmd => (cmd, 0)
  | .illegalIngwN10to11 cmd => (cmd, 0)
  | .illegalIngwN12to15 cmd => (cmd, 0)
  | .reservedOp6to7 cmd => (cmd, 0)
  | .reservedOp8toF cmd => (cmd, 0)

/-- `CMD` of a command given as one number whose bits 15..0 are `CMD` and bits 79..16 are `DATA`
(DESIGN CHOICE, safe: notes/assumptions/7.md). -/
def tableCmd (nbits w : Nat) : CmdWord := BitVec.ofNat 16 (w % 2 ^ nbits)

/-- `DATA` of the same number; a row of the opcode table gives it no bits, and it is then zero. -/
def tableData (nbits w : Nat) : Word := BitVec.ofNat 64 (w % 2 ^ nbits / 2 ^ Machine.hw.cmdWidth)

/-- What the decoder reads from the instruction whose `nbits` bits are `w`; a command has at most `CMD_WIDTH + DATA_WIDTH` = 80 bits
(R60), so a longer one is refused. -/
def decodeTableWord (nbits w : Nat) : Option Instr :=
  if nbits ≤ Machine.hw.cmdWidth + Machine.hw.dataWidth then some (decode (tableCmd nbits w) (tableData nbits w)) else none

end Sys2Proof
end

