-- ==== Sys2Proof/Machine/State.lean ====
section
/-! DEFINITION. The state of one block as plain data (spec/10_state.md rules R20 to R33), the inputs its ports receive (R30), the reasons a step can stop, and the state after reset (spec/70_reset_and_hazards.md rule R160). -/

namespace Sys2Proof.Machine

/-- One input the host gives the block through its three ports (R30), or a loss and return of power (R161). -/
inductive PortEvent where
  /-- One whole command on the command port: `CMD` and `DATA` presented together (R60). -/
  | command (cmd : CmdWord) (data : Word)
  /-- One host read on the read port (R45). -/
  | read (addr : Byte)
  /-- The reset input, taken between commands (R160, R144). -/
  | reset
  /-- Power is lost and returns, which is a reset (R161, R155; DEDUCED, unsafe: notes/assumptions/5.md). -/
  | powerCycle
  deriving DecidableEq, Repr

/-- A fault of the block. THERE IS NONE: no command stops the block on any input (R140), and an illegal command is a
next state with `STATUS.ILL` set (R141). Nobody raises one; having none is exact, not a safe shortcut. -/
inductive Fault where
  deriving DecidableEq, Repr

/-- The model's own refusals. -/
inductive Refusal where
  /-- Raised only by a refused arm of `exec`, for an instruction with no meaning yet; no arm is refused, so nobody
  raises it. It would be safe: it stops where the hardware goes on. -/
  | notModelled (mnemonic : String)
  deriving DecidableEq, Repr

/-- The architectural state of one block instance is `acc`, `out`, `outLen`, `ill` (R20); the last two fields are the
model's own and stand for the world outside the block (DESIGN CHOICE, safe: notes/assumptions/1.md, 3.md). -/
structure State where
  /-- `ACC`, the accumulator in stored form (R21). -/
  acc : Word
  /-- `OUT[0..15]`, the output buffer (R26). -/
  out : Vector Byte 16
  /-- `OUT_LEN`, 8 bits, a value in 0..16 (R27). -/
  outLen : Byte
  /-- `STATUS.ILL`, sticky (R28); `STATUS[7:1]` is hardwired to zero and holds nothing. -/
  ill : Bool
  /-- What the host, or several hosts in whatever order they issue, will present at the ports, oldest first. No state
  of the block: the block holds no queue (R33). -/
  pending : List PortEvent
  /-- What the read port has answered so far, address and data, oldest first. No state of the block. -/
  readLog : List (Byte × Byte)
  deriving DecidableEq, Repr

/-- The block of a configuration right after reset (R160; power-on is a reset, R161): every architectural field at the
spec's value, nothing presented at the ports and nothing read. -/
def State.resetOf (c : Config) : State where
  acc := c.accInit
  out := Vector.replicate 16 0x00#8
  outLen := 0x00#8
  ill := false
  pending := []
  readLog := []

/-- This hardware right after reset. -/
def State.reset : State := State.resetOf hw

end Sys2Proof.Machine
end

