-- ==== Sys2Proof/Machine/Flags.lean ====
section
/-! DEFINITION. The status register, the only flag-like state of the block (spec/10_state.md rules R28, R31). -/

namespace Sys2Proof.Machine

/-- `STATUS` as the host reads it: bit 0 is `ILL`, bits 7:1 are hardwired to zero (R28, R45 `zext_8(STATUS.ILL)`). -/
def State.status (s : State) : Byte := (BitVec.ofBool s.ill).setWidth 8

end Sys2Proof.Machine
end

