-- ==== Sys2Proof/Machine/Ops.lean ====
section
/-! DEFINITION. The shared operations on the state: writing `ACC` and `OUT`, raising `IllegalCommand`, reset, and the host read map (spec/10_state.md, spec/20_memory.md rule R45, spec/60_exceptions.md rule R141, spec/70_reset_and_hazards.md rule R160). -/

namespace Sys2Proof.Machine

/-- What a step or a meaning answers. -/
abbrev Result := Host.Outcome State Fault Refusal

/-- `ACC <- v` (R15, R21). -/
def State.setAcc (s : State) (v : Word) : State := { s with acc := v }

/-- The 16 bytes of `OUT` that hold `bytes` from `OUT[0]` on and `0x00` after them (R26). -/
def fillOut (bytes : List Byte) : Vector Byte 16 := Vector.ofFn fun k => bytes.getD k.val 0x00#8

/-- A result into the output buffer: all 16 bytes of `OUT`, and `OUT_LEN` the number of result bytes (R26, R27, R110, R85). -/
def State.writeOut (s : State) (bytes : List Byte) : State :=
  { s with out := fillOut bytes, outLen := BitVec.ofNat 8 bytes.length }

/-- `raise IllegalCommand(CMD)`: `STATUS.ILL <- 1` and nothing else. The block records neither the word nor a cause, saves
nothing and goes on with the next command (R141, R145); there is no return from it (R146). -/
def State.raiseIllegalCommand (s : State) (_cmd : CmdWord) : State := { s with ill := true }

/-- Reset of the block of a configuration: every architectural field to its reset value, the ROM untouched; what lies
outside the block stays (R160; notes/assumptions/1.md, 3.md). -/
def State.resetBlockOf (c : Config) (s : State) : State :=
  { State.resetOf c with pending := s.pending, readLog := s.readLog }

/-- Reset of this hardware. -/
def State.resetBlock (s : State) : State := s.resetBlockOf hw

/-- `HostRead(addr)` of a configuration: the host read map, `OUT` at the addresses below `OUT_BYTES` (R45). -/
def hostReadOf (c : Config) (s : State) (addr : Byte) : Byte :=
  if h : addr.toNat < c.outBytes then s.out[addr.toNat]'(c.outBytes_eq ▸ h)
  else if addr = 0x10#8 then s.outLen
  else if addr = 0x11#8 then s.status
  else 0x00#8

/-- `HostRead(addr)` of this hardware (R45). -/
def hostRead (s : State) (addr : Byte) : Byte := hostReadOf hw s addr

/-- One host read: the block is unchanged, the read port's answer goes to the host (R45, R49). -/
def State.answerReadOf (c : Config) (s : State) (addr : Byte) : State :=
  { s with readLog := s.readLog ++ [(addr, hostReadOf c s addr)] }

/-- One host read of this hardware. -/
def State.answerRead (s : State) (addr : Byte) : State := s.answerReadOf hw addr

end Sys2Proof.Machine
end

