-- ==== Sys2Proof/Machine/Control.lean ====
section
/-! DEFINITION. NOP, CLEAR and the illegal commands (spec/43_control.md rules R130 to R132, spec/30_encoding.md rule R66). -/

namespace Sys2Proof.Machine

/-- NOP: no state changes (R130). -/
def execNop (s : State) : Result := .next s

/-- CLEAR on the block of a configuration: `ACC` to its initial value; `OUT`, `OUT_LEN` and the sticky `STATUS.ILL` are kept
(R131, D12). -/
def clearOf (c : Config) (s : State) : Result := .next (s.setAcc c.accInit)

/-- CLEAR (R131). -/
def execClear (s : State) : Result := clearOf hw s

/-- INGW with `N` = 9 is an illegal command (R66, R141). -/
def execIllegalIngwN9 (cmd : CmdWord) (s : State) : Result := .next (s.raiseIllegalCommand cmd)

/-- INGW with `N` = 10 or 11 is an illegal command (R66, R141). -/
def execIllegalIngwN10to11 (cmd : CmdWord) (s : State) : Result := .next (s.raiseIllegalCommand cmd)

/-- INGW with `N` = 12..15 is an illegal command (R66, R141). -/
def execIllegalIngwN12to15 (cmd : CmdWord) (s : State) : Result := .next (s.raiseIllegalCommand cmd)

/-- The reserved opcodes `0x6` and `0x7` are illegal commands (R132, R141). -/
def execReservedOp6to7 (cmd : CmdWord) (s : State) : Result := .next (s.raiseIllegalCommand cmd)

/-- The reserved opcodes `0x8`..`0xF` are illegal commands (R132, R141). -/
def execReservedOp8toF (cmd : CmdWord) (s : State) : Result := .next (s.raiseIllegalCommand cmd)

end Sys2Proof.Machine
end

