-- ==== Sys2Proof/Machine/Operands.lean ====
section
/-! DEFINITION. Operand assembly: bytes and hexadecimal digits of a 64-bit value, the byte lanes of `DATA` (spec/00_scope.md rule R13, spec/30_encoding.md rule R63, spec/20_memory.md rule R42). -/

namespace Sys2Proof.Machine

/-- Byte `k` of a 64-bit value, `v[8k+7:8k]`, byte 0 the least significant (R13, R63). -/
def byteLane (v : Word) (k : Nat) : Byte := v.extractLsb' (8 * k) 8

/-- The `k`-th hexadecimal digit of a 64-bit value, `v[4k+3:4k]`, digit 0 the least significant (R113). -/
def hexDigit (v : Word) (k : Nat) : Nibble := v.extractLsb' (4 * k) 4

/-- The first `n` byte lanes of a 64-bit value, lane 0 first: the bytes INGW ingests, in order (R42, R63). -/
def byteLanes (n : Nat) (v : Word) : List Byte := (List.range n).map (byteLane v)

/-- The 64-bit value whose lane `j` is byte `j` of the list and whose other lanes are zero (R70). -/
def packLanes : List Byte → Word
  | [] => 0
  | b :: bs => b.setWidth 64 ||| packLanes bs <<< 8

end Sys2Proof.Machine
end

