-- ==== Sys2Proof/Machine/Finalize.lean ====
section
/-! DEFINITION. The finalization encoders and FIN (spec/42_finalize.md rules R110 to R116). -/

namespace Sys2Proof.Machine

/-- `enc_buffer`: the bytes of the accumulator, least significant first (R112, R44). -/
def encBuffer (c : Config) (acc : Word) : List Byte := byteLanes (c.accWidth / 8) acc

/-- The ASCII code of a hexadecimal digit, upper case (R113). -/
def hexChar (d : Nibble) : Byte := if d ≤ 9#4 then 0x30#8 + d.setWidth 8 else 0x41#8 + (d.setWidth 8 - 10#8)

/-- The number of hexadecimal digits of a value without leading zeros, at least one: `1 + floor(log16 acc)`, and 1 for
zero, since `Nat.log2 0 = 0` (R113). -/
def hexWidth (acc : Word) : Nat := acc.toNat.log2 / 4 + 1

/-- `enc_hex`: the numeric value in base 16, most significant digit first (R113, R46; 90_conflicts.md C2, C4). -/
def encHex (c : Config) (acc : Word) : List Byte :=
  let n := if c.hexPad then c.accWidth / 4 else hexWidth acc
  (List.range n).map fun j => hexChar (hexDigit acc (n - 1 - j))

/-- Character `q` of the base64 alphabet `A`..`Z`, `a`..`z`, `0`..`9`, `+`, `/` (R114). -/
def base64Char (q : BitVec 6) : Byte :=
  if q < 26#6 then 0x41#8 + q.setWidth 8
  else if q < 52#6 then 0x61#8 + (q.setWidth 8 - 26#8)
  else if q < 62#6 then 0x30#8 + (q.setWidth 8 - 52#8)
  else if q = 62#6 then 0x2B#8
  else 0x2F#8

/-- The four characters of a 3-byte group, most significant six bits first (R114). -/
def base64Group (p0 p1 p2 : Byte) : List Byte :=
  let q : BitVec 24 := p0 ++ p1 ++ p2
  [base64Char (q.extractLsb' 18 6), base64Char (q.extractLsb' 12 6),
   base64Char (q.extractLsb' 6 6), base64Char (q.extractLsb' 0 6)]

/-- `enc_base64`: the standard base64 text of the 8 bytes of `enc_buffer`, 11 characters and one `=` (R114). -/
def encBase64 (acc : Word) : List Byte :=
  base64Group (byteLane acc 0) (byteLane acc 1) (byteLane acc 2) ++
  base64Group (byteLane acc 3) (byteLane acc 4) (byteLane acc 5) ++
  (base64Group (byteLane acc 6) (byteLane acc 7) 0x00#8).take 3 ++ [0x3D#8]

/-- The digest a selector names; a selector the source does not name falls back to `"buffer"` (R110, R116, R67). -/
def finalize (c : Config) (sel : Nibble) (acc : Word) : List Byte :=
  if sel = c.selHex then encHex c acc
  else if sel = c.selBase64 then encBase64 acc
  else encBuffer c acc

/-- FIN on the block of a configuration: the digest of `ACC` into `OUT`; `ACC` and `STATUS` are unchanged (R110, R111). -/
def finOf (c : Config) (sel : Nibble) (s : State) : Result :=
  .next (s.writeOut (finalize c sel s.acc))

/-- FIN (R110). -/
def execFin (sel : Nibble) (s : State) : Result := finOf hw sel s

end Sys2Proof.Machine
end

