-- ==== Sys2Proof/Machine/Table.lean ====
section
/-! DEFINITION. The Reduction Table: its lookup, the construction rule its entries follow, and TBLRD (spec/40_table.md rules R80 to R85). -/

namespace Sys2Proof.Machine

/-- `RomRead(i)`: the entry at an 8-bit index, in range by construction (R84, R41). -/
def romRead (c : Config) (i : Byte) : Word := c.romTable[i.toNat]'(c.tableEntries_eq ▸ i.isLt)

/-- One step of the least-significant-bit-first division (R81). -/
def reduceBit (poly : Word) (v : Word) : Word :=
  if v.getLsbD 0 then v >>> 1 ^^^ poly else v >>> 1

/-- Eight steps of `reduceBit`, one for each bit of a byte (R81). -/
def reduceByte (poly : Word) (v : Word) : Word := (reduceBit poly)^[8] v

/-- `gen(i)`: the construction rule of entry `i`, applied offline; the block never runs it (R81, R9). -/
def gen (poly : Word) (i : Byte) : Word := reduceByte poly (i.setWidth 64)

/-- TBLRD on the block of a configuration: ROM entry `idx` into `OUT`, little-endian, `OUT_LEN` its bytes, 8 (R85, R44). -/
def tblrdOf (c : Config) (idx : Byte) (s : State) : Result :=
  .next (s.writeOut (byteLanes (c.tableWidth / 8) (romRead c idx)))

/-- TBLRD (R85). -/
def execTblrd (idx : Byte) (s : State) : Result := tblrdOf hw idx s

end Sys2Proof.Machine
end

