-- ==== Sys2Proof/Machine/Ingest.lean ====
section
/-! DEFINITION. Ingest: the transform `flip`, the byte step, INGB and INGW (spec/41_ingest.md rules R90 to R98). -/

namespace Sys2Proof.Machine

/-- `flip`, the ones'-complement transform between the stored and the working form (R90; 90_conflicts.md C3: no bit reversal). -/
def flipWord (c : Config) (v : Word) : Word := v ^^^ c.flipMask

/-- The byte step on the working form (R93). -/
def byteStep (c : Config) (w : Word) (b : Byte) : Word :=
  romRead c (w.extractLsb' 0 8 ^^^ b) ^^^ w >>> 8

/-- The ingest of a byte sequence from a stored accumulator: flip, one step for each byte, first byte first, flip (R98). -/
def ingest (c : Config) (acc : Word) (bytes : List Byte) : Word :=
  flipWord c (bytes.foldl (byteStep c) (flipWord c acc))

/-- The per-byte update in stored form (R96). -/
def storedUpdate (c : Config) (acc : Word) (b : Byte) : Word := flipWord c (byteStep c (flipWord c acc) b)

/-- INGB on the block of a configuration: ingest the one byte `byte`; `OUT`, `OUT_LEN` and `STATUS` are unchanged (R95). -/
def ingbOf (c : Config) (byte : Byte) (s : State) : Result :=
  .next (s.setAcc (ingest c s.acc [byte]))

/-- INGW on the block of a configuration: ingest the `n` low byte lanes of `data`, lane 0 first; a count above `INGW_MAX`
is an illegal command and processes no byte (R97, R144). -/
def ingwOf (c : Config) (n : Nibble) (data : Word) (s : State) : Result :=
  if n.toNat ≤ c.ingwMax then .next (s.setAcc (ingest c s.acc (byteLanes n.toNat data)))
  else .next (s.raiseIllegalCommand (0x3000#16 ||| n.setWidth 16 <<< 8))

/-- INGB (R95). -/
def execIngb (byte : Byte) (s : State) : Result := ingbOf hw byte s

/-- INGW (R97). -/
def execIngw (n : Nibble) (data : Word) (s : State) : Result := ingwOf hw n data s

end Sys2Proof.Machine
end

