-- ==== Sys2Proof/Machine/Dispatch.lean ====
section
/-! DEFINITION. One arm per command: each calls its meaning. -/

namespace Sys2Proof.Machine

/-- The meaning of a decoded command. -/
def exec (i : Instr) (s : State) : Host.Outcome State Fault Refusal :=
  match i with
  | .nop => Sys2Proof.Machine.execNop s
  | .clear => Sys2Proof.Machine.execClear s
  | .ingb byte => Sys2Proof.Machine.execIngb byte s
  | .ingw n data => Sys2Proof.Machine.execIngw n data s
  | .fin sel => Sys2Proof.Machine.execFin sel s
  | .tblrd idx => Sys2Proof.Machine.execTblrd idx s
  | .illegalIngwN9 cmd => Sys2Proof.Machine.execIllegalIngwN9 cmd s
  | .illegalIngwN10to11 cmd => Sys2Proof.Machine.execIllegalIngwN10to11 cmd s
  | .illegalIngwN12to15 cmd => Sys2Proof.Machine.execIllegalIngwN12to15 cmd s
  | .reservedOp6to7 cmd => Sys2Proof.Machine.execReservedOp6to7 cmd s
  | .reservedOp8toF cmd => Sys2Proof.Machine.execReservedOp8toF cmd s

end Sys2Proof.Machine
end

