-- ==== Sys2Proof/Machine/Step.lean ====
section
/-! DEFINITION. One step of the block: the oldest input at its ports takes effect whole (spec/20_memory.md rules R43, R49, spec/70_reset_and_hazards.md rules R174, R175). -/

namespace Sys2Proof.Machine

/-- The effect of one port input on a state from which that input has been taken. -/
def present (e : PortEvent) (s : State) : Result :=
  match e with
  | .command cmd data => exec (decode cmd data) s
  | .read addr => .next (s.answerRead addr)
  | .reset => .next s.resetBlock
  | .powerCycle => .next s.resetBlock

/-- One step: the oldest pending input, or idling where the host presents nothing (R155, R162; DEDUCED, safe:
notes/assumptions/4.md). -/
def step (s : State) : Host.Outcome State Fault Refusal :=
  match s.pending with
  | [] => .next s
  | e :: rest => present e { s with pending := rest }

/-- The state in which the host presents, before anything else it will present, the one command whose `nbits` bits are `w`:
the block fetches nothing (R24), so the next command is the one at the command port (notes/assumptions/2.md). -/
def State.withFetchWord (s : State) (nbits w : Nat) : State :=
  { s with pending := .command (tableCmd nbits w) (tableData nbits w) :: s.pending }

end Sys2Proof.Machine
end

