-- ==== Sys2Proof/Machine/Assembler.lean ====
section
/-! DEFINITION. The assembler of CRC64-CMD v1: statements, their command words, the `ING` pseudo-command, and the text of a line (spec/30_encoding.md rules R69, R70). -/

namespace Sys2Proof.Machine

/-- One assembler statement with its operands as written; a number out of range is written but not accepted (R69, R70). -/
inductive AsmStatement where
  | nop
  | clear
  | ingb (b : Nat)
  | ingw (n d : Nat)
  /-- `FIN` alone or with the name `buffer`, `hex` or `base64` (the selector the name stands for). -/
  | finNamed (sel : Nibble)
  /-- `FIN s` with a number. -/
  | fin (s : Nat)
  | tblrd (i : Nat)
  /-- `ING` with its bytes, from a quoted text or a list. -/
  | ing (bytes : List Nat)
  deriving DecidableEq, Repr

/-- INGW commands over consecutive 8-byte groups, the last over what remains; the first argument bounds their number (R70). -/
def ingGroups : Nat → List Byte → List (CmdWord × Word)
  | 0, _ => []
  | k + 1, bytes =>
    if bytes = [] then []
    else encode (.ingw (BitVec.ofNat 4 (min bytes.length 8)) (packLanes (bytes.take 8))) :: ingGroups k (bytes.drop 8)

/-- The expansion of `ING` over a byte sequence (R70). -/
def ingExpansion (bytes : List Byte) : List (CmdWord × Word) := ingGroups bytes.length bytes

/-- The commands a statement assembles to; an operand out of range is rejected (R69, R70). -/
def assemble : AsmStatement → Option (List (CmdWord × Word))
  | .nop => some [encode .nop]
  | .clear => some [encode .clear]
  | .ingb b => if b < 256 then some [encode (.ingb (BitVec.ofNat 8 b))] else none
  | .ingw n d => if n ≤ hw.ingwMax ∧ d < 2 ^ hw.dataWidth then some [encode (.ingw (BitVec.ofNat 4 n) (BitVec.ofNat 64 d))] else none
  | .finNamed sel => some [encode (.fin sel)]
  | .fin s => if s < 16 then some [encode (.fin (BitVec.ofNat 4 s))] else none
  | .tblrd i => if i < 256 then some [encode (.tblrd (BitVec.ofNat 8 i))] else none
  | .ing bytes => if bytes.all (· < 256) then some (ingExpansion (bytes.map (BitVec.ofNat 8))) else none

/-! The text of a line. R69 gives the statements and leaves white space, the letter case of selector names and of
hexadecimal digits, and how quoting goes (a `;` or `,` inside quotes, the quoted apostrophe) open; what stands below is DESIGN CHOICE, safe:
notes/assumptions/10.md. -/

/-- The apostrophe, which encloses one quoted character. -/
def apostrophe : Char := Char.ofNat 0x27

/-- The double quote, which encloses a quoted text. -/
def doubleQuote : Char := Char.ofNat 0x22

/-- Blank or tabulator. -/
def isBlank (c : Char) : Bool := c.toNat == 0x20 || c.toNat == 0x09

/-- A letter's code with capitals mapped to small letters, for case-insensitive comparison. -/
def lowerCode (c : Char) : Nat := if 0x41 ≤ c.toNat ∧ c.toNat ≤ 0x5A then c.toNat + 0x20 else c.toNat

/-- Are two words the same but for letter case? -/
def sameWord (a b : List Char) : Bool := a.map lowerCode == b.map lowerCode

/-- A word without the blanks at its ends. -/
def trimBlanks (l : List Char) : List Char := ((l.dropWhile isBlank).reverse.dropWhile isBlank).reverse

/-- Where a character of a line stands. -/
inductive Quotation where
  /-- Outside quotes, where `;` starts a comment and `,` separates operands. -/
  | outside
  /-- Inside a quoted text. -/
  | text
  /-- Inside a quoted character, with this many characters to come, its closing apostrophe among them. -/
  | char (left : Nat)
  deriving DecidableEq, Repr

/-- Where the next character stands, after the character `c` that `rest` follows. An apostrophe outside quotes quotes the
one character after it, whichever that is (the apostrophe itself, a double quote, `;` or `,` too), where an apostrophe
follows that one; elsewhere it quotes nothing. A double quote outside quotes opens a text that the next double quote
closes. R69 and R70 are silent on all of this: DESIGN CHOICE, safe: notes/assumptions/10.md. -/
def quoteAfter (q : Quotation) (c : Char) (rest : List Char) : Quotation :=
  match q with
  | .outside =>
    if c = doubleQuote then .text
    else if c = apostrophe ∧ rest[1]? = some apostrophe then .char 2
    else .outside
  | .text => if c = doubleQuote then .outside else .text
  | .char left => if left ≤ 1 then .outside else .char (left - 1)

/-- A line up to the `;` that starts its comment (R69). -/
def dropComment (q : Quotation) : List Char → List Char
  | [] => []
  | c :: cs => if q = .outside ∧ c = ';' then [] else c :: dropComment (quoteAfter q c cs) cs

/-- The parts of an operand text between the commas that stand outside quotes. -/
def splitOperands (q : Quotation) : List Char → List (List Char)
  | [] => [[]]
  | c :: cs =>
    if q = .outside ∧ c = ',' then [] :: splitOperands .outside cs
    else
      match splitOperands (quoteAfter q c cs) cs with
      | [] => [[c]]
      | w :: ws => (c :: w) :: ws

/-- The value of a digit in base 16. -/
def digitValue (c : Char) : Option Nat :=
  if 0x30 ≤ c.toNat ∧ c.toNat ≤ 0x39 then some (c.toNat - 0x30)
  else if 0x61 ≤ lowerCode c ∧ lowerCode c ≤ 0x66 then some (lowerCode c - 0x57)
  else none

/-- The digits of a number in a base, most significant first, after the value read so far. -/
def digitsValue (base : Nat) : Nat → List Char → Option Nat
  | v, [] => some v
  | v, c :: cs =>
    match digitValue c with
    | some d => if d < base then digitsValue base (base * v + d) cs else none
    | none => none

/-- A number in decimal or `0x` hexadecimal (R69). -/
def parseNumber : List Char → Option Nat
  | [] => none
  | ['0'] => some 0
  | '0' :: x :: ds => if lowerCode x = 0x78 then (if ds = [] then none else digitsValue 16 0 ds) else digitsValue 10 0 (x :: ds)
  | ds => digitsValue 10 0 ds

/-- A byte operand: a number, or a quoted character for its ASCII code (R69), the apostrophe among them (DESIGN CHOICE, safe:
notes/assumptions/10.md). -/
def parseByte (w : List Char) : Option Nat :=
  match w with
  | [q, c, r] => if q = apostrophe ∧ r = apostrophe then (if c.toNat < 128 then some c.toNat else none) else parseNumber w
  | _ => parseNumber w

/-- A quoted text, as its ASCII bytes; text outside ASCII is refused (R70). -/
def parseText (w : List Char) : Option (List Nat) :=
  match w with
  | [] => none
  | q :: rest =>
    match rest.reverse with
    | [] => none
    | r :: body =>
      if q = doubleQuote ∧ r = doubleQuote ∧ body.all (fun c => decide (c.toNat < 128) && c != doubleQuote)
      then some (body.reverse.map Char.toNat) else none

/-- The operands of `ING`: none, one quoted text, or byte operands (R70). -/
def parseIng (ws : List (List Char)) : Option (List Nat) :=
  match ws with
  | [[]] => some []
  | [w] => (parseText w).or (parseByte w |>.map fun b => [b])
  | _ => ws.mapM parseByte

/-- The operand of `FIN` (R69). -/
def parseFin (w : List Char) : Option AsmStatement :=
  if w = [] ∨ sameWord w ['b', 'u', 'f', 'f', 'e', 'r'] then some (.finNamed hw.selBuffer)
  else if sameWord w ['h', 'e', 'x'] then some (.finNamed hw.selHex)
  else if sameWord w ['b', 'a', 's', 'e', '6', '4'] then some (.finNamed hw.selBase64)
  else (parseNumber w).map .fin

/-- The statement a mnemonic, in any letter case, makes of its operands (R69, R70). -/
def parseStatement (mnemonic : List Char) (ws : List (List Char)) : Option AsmStatement :=
  if sameWord mnemonic ['N', 'O', 'P'] then (if ws = [[]] then some .nop else none)
  else if sameWord mnemonic ['C', 'L', 'E', 'A', 'R'] then (if ws = [[]] then some .clear else none)
  else if sameWord mnemonic ['I', 'N', 'G', 'B'] then
    match ws with
    | [w] => (parseByte w).map .ingb
    | _ => none
  else if sameWord mnemonic ['I', 'N', 'G', 'W'] then
    match ws with
    | [n, d] => (parseNumber n).bind fun n => (parseNumber d).map fun d => .ingw n d
    | _ => none
  else if sameWord mnemonic ['F', 'I', 'N'] then
    match ws with
    | [w] => parseFin w
    | _ => none
  else if sameWord mnemonic ['T', 'B', 'L', 'R', 'D'] then
    match ws with
    | [w] => (parseNumber w).map .tblrd
    | _ => none
  else if sameWord mnemonic ['I', 'N', 'G'] then (parseIng ws).map .ing
  else none

/-- The commands one line of assembler text stands for: a blank or comment line none, a line that is no statement or has
an operand out of range rejected (R69, R70). -/
def assembleLine (line : List Char) : Option (List (CmdWord × Word)) :=
  let text := trimBlanks (dropComment .outside line)
  if text = [] then some []
  else
    (parseStatement (text.takeWhile (!isBlank ·))
      ((splitOperands .outside (trimBlanks (text.dropWhile (!isBlank ·)))).map trimBlanks)).bind assemble

end Sys2Proof.Machine
end

