-- ==== Sys2Proof/Machine/Blocks.lean ====
section
/-! DEFINITION. Several block instances: each has its own state and ports, and they share only the read-only ROM, which is configuration (spec/60_exceptions.md rule R153, spec/20_memory.md rule R55). -/

namespace Sys2Proof.Machine

/-- One step of instance `k`; an index that names no instance does nothing (DESIGN CHOICE, safe: notes/assumptions/11.md). -/
def stepBlock (k : Nat) (blocks : List State) : Host.Outcome (List State) Fault Refusal :=
  match blocks[k]? with
  | none => .next blocks
  | some s =>
    match step s with
    | .next t => .next (blocks.set k t)
    | .fault f => .fault f
    | .refused r => .refused r

/-- Instances step in the order a schedule names them. -/
def runBlocks : List Nat → List State → Host.Outcome (List State) Fault Refusal
  | [], blocks => .next blocks
  | k :: ks, blocks =>
    match stepBlock k blocks with
    | .next blocks' => runBlocks ks blocks'
    | .fault f => .fault f
    | .refused r => .refused r

end Sys2Proof.Machine
end

