-- ==== Sys2Proof/Machine/Parametric.lean ====
section
/-! DEFINITION. The machine of any configuration of spec/00_scope.md rule R12; `exec`, `step` and `State.reset` are it at `hw` (Laws/Parametric.lean). -/

namespace Sys2Proof.Machine

/-- The meaning of a decoded command on the block of a configuration. -/
def execOf (c : Config) (i : Instr) (s : State) : Result :=
  match i with
  | .nop => execNop s
  | .clear => clearOf c s
  | .ingb byte => ingbOf c byte s
  | .ingw n data => ingwOf c n data s
  | .fin sel => finOf c sel s
  | .tblrd idx => tblrdOf c idx s
  | .illegalIngwN9 cmd => execIllegalIngwN9 cmd s
  | .illegalIngwN10to11 cmd => execIllegalIngwN10to11 cmd s
  | .illegalIngwN12to15 cmd => execIllegalIngwN12to15 cmd s
  | .reservedOp6to7 cmd => execReservedOp6to7 cmd s
  | .reservedOp8toF cmd => execReservedOp8toF cmd s

/-- The effect of a port input on the block of a configuration. -/
def presentOf (c : Config) (e : PortEvent) (s : State) : Result :=
  match e with
  | .command cmd data => execOf c (decodeOf c cmd data) s
  | .read addr => .next (s.answerReadOf c addr)
  | .reset => .next (s.resetBlockOf c)
  | .powerCycle => .next (s.resetBlockOf c)

/-- One step of the block of a configuration (R43, R49). -/
def stepOf (c : Config) (s : State) : Result :=
  match s.pending with
  | [] => .next s
  | e :: rest => presentOf c e { s with pending := rest }

end Sys2Proof.Machine
end

