-- ==== Sys2Proof/Machine/Reference.lean ====
section
/-! DEFINITION. What the block is compared with: the catalogued CRC of spec/41_ingest.md rule R102, the polynomial division of spec/40_table.md rule R81, and a host's reading of a digest (spec/42_finalize.md rule R118). No command uses these. -/

namespace Sys2Proof.Machine

/-- `POLY` in most-significant-first form, `x^64` implied (R81, R102). -/
def polyMsb : Word := 0xAD93D23594C93659

/-- The degree-64 divisor `G(x)`, its `x^64` term written out (R81). -/
def divisor : BitVec 72 := 0x1AD93D23594C93659

/-- Remainder of a polynomial of degree below `64 + k` on division by `G`: long division from the highest term (R81). -/
def polyRemainder : Nat → BitVec 72 → BitVec 72
  | 0, v => v
  | k + 1, v => polyRemainder k (if v.getLsbD (64 + k) then v ^^^ divisor <<< k else v)

/-- Entry `i` by division: the bit reversal of `(rev8(i) · x^64) mod G(x)` (R81, "Equivalently"). -/
def tableByDivision (i : Byte) : Word :=
  ((polyRemainder 8 (i.reverse.setWidth 72 <<< 64)).setWidth 64).reverse

/-- One bit of a most-significant-first CRC register. -/
def shiftOut (reg : Word) : Word := if reg.getMsbD 0 then reg <<< 1 ^^^ polyMsb else reg <<< 1

/-- One input byte, reflected, into the register (R102 "reflected input"). -/
def catalogueByte (reg : Word) (b : Byte) : Word := shiftOut^[8] (reg ^^^ b.reverse.setWidth 64 <<< 56)

/-- The catalogued CRC: initial register all ones, reflected input and output, final XOR all ones (R102; what the
catalogue's words mean is PRESUMED, safe: notes/assumptions/12.md). -/
def catalogueCrc (bytes : List Byte) : Word :=
  (bytes.foldl catalogueByte 0xFFFFFFFFFFFFFFFF).reverse ^^^ 0xFFFFFFFFFFFFFFFF

/-- The digit an ASCII code `0`..`9`, `A`..`F` stands for. -/
def hexCharValue (c : Byte) : Option Nat :=
  if 0x30#8 ≤ c ∧ c ≤ 0x39#8 then some (c.toNat - 0x30)
  else if 0x41#8 ≤ c ∧ c ≤ 0x46#8 then some (c.toNat - 0x37)
  else none

/-- The characters of a hexadecimal text read as a base-16 number, after the value read so far (R118). -/
def readHex : Nat → List Byte → Option Nat
  | v, [] => some v
  | v, c :: cs =>
    match hexCharValue c with
    | some d => readHex (16 * v + d) cs
    | none => none

/-- The index of a character of the base64 alphabet (R114; RFC 4648 section 4). -/
def base64Value (c : Byte) : Option (BitVec 6) :=
  if 0x41#8 ≤ c ∧ c ≤ 0x5A#8 then some ((c - 0x41#8).setWidth 6)
  else if 0x61#8 ≤ c ∧ c ≤ 0x7A#8 then some ((c - 0x61#8 + 26#8).setWidth 6)
  else if 0x30#8 ≤ c ∧ c ≤ 0x39#8 then some ((c - 0x30#8 + 52#8).setWidth 6)
  else if c = 0x2B#8 then some 62#6
  else if c = 0x2F#8 then some 63#6
  else none

/-- The three bytes of four base64 indices. -/
def base64Bytes (a b c d : BitVec 6) : List Byte :=
  let q : BitVec 24 := a ++ b ++ c ++ d
  [q.extractLsb' 16 8, q.extractLsb' 8 8, q.extractLsb' 0 8]

/-- Base64 decoding: groups of four characters, the last of which may end in `=` (one or two bytes less) (R118). -/
def base64Decode : List Byte → Option (List Byte)
  | [] => some []
  | a :: b :: c :: d :: rest =>
    match base64Value a, base64Value b, base64Value c, base64Value d, base64Decode rest with
    | some a, some b, some c, some d, some tail => some (base64Bytes a b c d ++ tail)
    | some a, some b, some c, none, some [] => if d = 0x3D#8 then some ((base64Bytes a b c 0).take 2) else none
    | some a, some b, none, none, some [] => if c = 0x3D#8 ∧ d = 0x3D#8 then some ((base64Bytes a b 0 0).take 1) else none
    | _, _, _, _, _ => none
  | _ => none

/-- The number whose little-endian bytes are `bytes`. -/
def littleEndianValue : List Byte → Nat
  | [] => 0
  | b :: bs => b.toNat + 256 * littleEndianValue bs

end Sys2Proof.Machine
end

