-- ==== Sys2Proof/Machine/Run.lean ====
section
/-! DEFINITION. A sequence of inputs: commands, host reads and resets form one total order (spec/20_memory.md rules R43, R49). -/

namespace Sys2Proof.Machine

/-- `k` steps, stopping at the first fault or refusal. -/
def runSteps : Nat → State → Result
  | 0, s => .next s
  | k + 1, s =>
    match step s with
    | .next t => runSteps k t
    | .fault f => .fault f
    | .refused r => .refused r

/-- The host presents exactly the inputs `es`, in this order, and the block takes them all. -/
def runPort (es : List PortEvent) (s : State) : Result :=
  runSteps es.length { s with pending := es }

end Sys2Proof.Machine
end

