-- ==== Sys2Proof/Safety.lean ====
section
/-! DEFINITION. The terms claims use: the invariants of the block, what counts as a safe run, byte streams and interleavings. -/

namespace Sys2Proof.Machine

/-- What R26 and R27 say of the output buffer in every state: `OUT_LEN` is 0..16, and `OUT` is `0x00` from
`OUT[OUT_LEN]` on. -/
def State.outputOk (s : State) : Prop :=
  s.outLen.toNat ≤ 16 ∧ ∀ k : Fin 16, s.outLen.toNat ≤ k.val → s.out[k.val] = 0x00

/-- No command since the last reset was illegal: the premise R141 asks of a claim about a command sequence. -/
def State.safe (s : State) : Prop := s.ill = false

/-- Two states of the block with the same architectural state, the tuple of R20. -/
def State.sameBlock (s t : State) : Prop :=
  s.acc = t.acc ∧ s.out = t.out ∧ s.outLen = t.outLen ∧ s.ill = t.ill

/-- The bytes a decoded command ingests, in order (R42). -/
def ingestedBytes : Instr → List Byte
  | .ingb byte => [byte]
  | .ingw n data => byteLanes n.toNat data
  | _ => []

/-- An input that ingests bytes or is without effect on `ACC`, that is, no CLEAR and no reset. -/
def keepsStream : PortEvent → Bool
  | .command cmd data => decode cmd data != .clear
  | .read _ => true
  | .reset => false
  | .powerCycle => false

/-- The byte stream of a sequence of inputs. -/
def streamOf (es : List PortEvent) : List Byte :=
  es.flatMap fun
    | .command cmd data => ingestedBytes (decode cmd data)
    | _ => []

/-- Is the input a FIN command? -/
def isFin : PortEvent → Bool
  | .command cmd _ => cmdOp cmd == 0x4
  | _ => false

/-- Does the input write `OUT`: FIN, TBLRD or a reset (R26, R160)? -/
def writesOut : PortEvent → Bool
  | .command cmd _ => cmdOp cmd == 0x4 || cmdOp cmd == 0x5
  | .read _ => false
  | .reset => true
  | .powerCycle => true

/-- Is the input a reset (R160, R161)? -/
def isReset : PortEvent → Bool
  | .reset => true
  | .powerCycle => true
  | _ => false

/-- Is the input an illegal command (R66)? -/
def isIllegal : PortEvent → Bool
  | .command cmd data => (decode cmd data).illegalWord.isSome
  | _ => false

/-- The inputs of R164's procedure for one checksum over the ingest commands `es`: CLEAR, the commands, FIN, and reads of
`OUT_LEN`, of all sixteen bytes of `OUT` and of `STATUS`. -/
def checksumInputs (sel : Nibble) (es : List PortEvent) : List PortEvent :=
  .command 0x1000 0 :: es ++ .command (0x4000#16 ||| sel.setWidth 16 <<< 8) 0 :: .read 0x10 ::
    (List.range 16).map (fun k => PortEvent.read (BitVec.ofNat 8 k)) ++ [.read 0x11]

/-- The answers to those reads when the digest is `digest` and no command was illegal. -/
def checksumAnswers (digest : List Byte) : List (Byte × Byte) :=
  (0x10, BitVec.ofNat 8 digest.length) ::
    (List.range 16).map (fun k => (BitVec.ofNat 8 k, digest.getD k 0x00#8)) ++ [(0x11, 0x00)]

/-- `zs` interleaves `xs` and `ys`: the inputs of two hosts in some order of whole commands (R50). -/
inductive Interleaves {α : Type} : List α → List α → List α → Prop where
  | nil : Interleaves [] [] []
  | left (x : α) {xs ys zs : List α} : Interleaves xs ys zs → Interleaves (x :: xs) ys (x :: zs)
  | right (y : α) {xs ys zs : List α} : Interleaves xs ys zs → Interleaves xs (y :: ys) (y :: zs)

end Sys2Proof.Machine
end

