-- ==== Sys2Proof/WellFormed.lean ====
section
/-! DEFINITION. Which terms of `Instr` are commands of the encoding (spec/30_encoding.md rules R63, R64, R66). -/

namespace Sys2Proof

/-- A term some command word stands for: a legal INGW count is at most `INGW_MAX` (R63), and an illegal command's word
lies in its own row of the opcode table (R64, R66: match and mask). -/
def Instr.wf : Instr → Bool
  | .nop => true
  | .clear => true
  | .ingb _ => true
  | .ingw n _ => n.toNat.ble Machine.hw.ingwMax
  | .fin _ => true
  | .tblrd _ => true
  | .illegalIngwN9 cmd => cmd &&& 0xFF00 == 0x3900
  | .illegalIngwN10to11 cmd => cmd &&& 0xFE00 == 0x3A00
  | .illegalIngwN12to15 cmd => cmd &&& 0xFC00 == 0x3C00
  | .reservedOp6to7 cmd => cmd &&& 0xE000 == 0x6000
  | .reservedOp8toF cmd => cmd &&& 0x8000 == 0x8000

end Sys2Proof
end

