-- ==== Sys2Proof/Certificates/Slice0/Obligations.lean ====
section
/-! DEFINITION. The statements for the provers, in the order of the rules of spec/: encoding, assembler, table, ingest, finalize, control, illegal commands, reset, ports, whole-machine rules. -/

open Sys2Proof Sys2Proof.Machine

/-! ## Encoding -/

/-- R65: decoding by `OP` alone, total on all command and data words; `Illegal(CMD)` is the illegal command whose word is
`CMD`. The reserved opcodes are the two patterns `011x…` and `1xxx…`. -/
def Obligations.DecodeFollowsRuleR65 : Prop :=
  ∀ (cmd : CmdWord) (data : Word),
    (cmd.extractLsb' 12 4 = 0x0 → decode cmd data = .nop) ∧
    (cmd.extractLsb' 12 4 = 0x1 → decode cmd data = .clear) ∧
    (cmd.extractLsb' 12 4 = 0x2 → decode cmd data = .ingb (cmd.extractLsb' 0 8)) ∧
    (cmd.extractLsb' 12 4 = 0x3 → (cmd.extractLsb' 8 4).toNat ≤ 8 →
      decode cmd data = .ingw (cmd.extractLsb' 8 4) data) ∧
    (cmd.extractLsb' 12 4 = 0x3 → 8 < (cmd.extractLsb' 8 4).toNat → (decode cmd data).illegalWord = some cmd) ∧
    (cmd.extractLsb' 12 4 = 0x4 → decode cmd data = .fin (cmd.extractLsb' 8 4)) ∧
    (cmd.extractLsb' 12 4 = 0x5 → decode cmd data = .tblrd (cmd.extractLsb' 0 8)) ∧
    (6 ≤ (cmd.extractLsb' 12 4).toNat → (decode cmd data).illegalWord = some cmd) ∧
    (6 ≤ (cmd.extractLsb' 12 4).toNat ↔ cmd &&& 0xE000 = 0x6000 ∨ cmd &&& 0x8000 = 0x8000)

/-- R66: the illegal encodings are exactly the reserved opcodes and INGW with `N` in 9..15, each in its own row of the
opcode table, and an illegal command sets `STATUS.ILL` and changes nothing else. -/
def Obligations.IllegalEncodingsOfRuleR66 : Prop :=
  ∀ (cmd : CmdWord) (data : Word),
    (cmd &&& 0xFF00 = 0x3900 → decode cmd data = .illegalIngwN9 cmd) ∧
    (cmd &&& 0xFE00 = 0x3A00 → decode cmd data = .illegalIngwN10to11 cmd) ∧
    (cmd &&& 0xFC00 = 0x3C00 → decode cmd data = .illegalIngwN12to15 cmd) ∧
    (cmd &&& 0xE000 = 0x6000 → decode cmd data = .reservedOp6to7 cmd) ∧
    (cmd &&& 0x8000 = 0x8000 → decode cmd data = .reservedOp8toF cmd) ∧
    ((decode cmd data).illegalWord.isSome ↔
      6 ≤ (cmd.extractLsb' 12 4).toNat ∨ (0x3900 ≤ cmd.toNat ∧ cmd.toNat ≤ 0x3FFF)) ∧
    ((decode cmd data).illegalWord.isSome →
      ∀ s : State, exec (decode cmd data) s = .next { s with ill := true })

/-- R62: a bit a format does not read has no effect on any state and makes no command illegal, and the assembler writes
such bits of `CMD` as zero. Two commands that agree on the bits their format reads do the same to every state. -/
def Obligations.UnreadBitsHaveNoEffect : Prop :=
  (∀ (cmd cmd' : CmdWord) (data data' : Word), cmd.extractLsb' 12 4 = cmd'.extractLsb' 12 4 →
    (cmd.extractLsb' 12 4 = 0x0 ∨ cmd.extractLsb' 12 4 = 0x1 ∨ 6 ≤ (cmd.extractLsb' 12 4).toNat ∨
      ((cmd.extractLsb' 12 4 = 0x2 ∨ cmd.extractLsb' 12 4 = 0x5) ∧ cmd.extractLsb' 0 8 = cmd'.extractLsb' 0 8) ∨
      (cmd.extractLsb' 12 4 = 0x4 ∧ cmd.extractLsb' 8 4 = cmd'.extractLsb' 8 4) ∨
      (cmd.extractLsb' 12 4 = 0x3 ∧ cmd.extractLsb' 8 4 = cmd'.extractLsb' 8 4 ∧
        ∀ k < (cmd.extractLsb' 8 4).toNat, data.extractLsb' (8 * k) 8 = data'.extractLsb' (8 * k) 8)) →
    (decode cmd data).illegalWord.isSome = (decode cmd' data').illegalWord.isSome ∧
    ∀ s : State, exec (decode cmd data) s = exec (decode cmd' data') s) ∧
  (∀ (a : AsmStatement) (out : List (CmdWord × Word)), assemble a = some out →
    ∀ p ∈ out, p.1 = (encode (decode p.1 p.2)).1)

/-- Decoding the encoding of a well-formed command gives it back, with every operand at every value the encoding admits. -/
def Obligations.DecodeOfEncodeIsIdentity : Prop :=
  ∀ i : Instr, i.wf = true → decode (encode i).1 (encode i).2 = i

/-- Decoding answers a well-formed command, and encoding it again gives the word with its unread bits zero (an illegal
command keeps its whole word). -/
def Obligations.EncodeOfDecodeClearsUnreadBits : Prop :=
  ∀ (cmd : CmdWord) (data : Word), (decode cmd data).wf = true ∧
    (encode (decode cmd data)).1 =
      match decode cmd data with
      | .nop => cmd &&& 0xF000
      | .clear => cmd &&& 0xF000
      | .ingb _ => cmd &&& 0xF0FF
      | .tblrd _ => cmd &&& 0xF0FF
      | .ingw _ _ => cmd &&& 0xFF00
      | .fin _ => cmd &&& 0xFF00
      | _ => cmd

/-- The worked encodings of spec/30_encoding.md section 6. -/
def Obligations.WorkedEncodingsDecode : Prop :=
  decode 0x1000 0 = .clear ∧ decode 0x2061 0 = .ingb 0x61 ∧ decode 0x3300 0x636261 = .ingw 3 0x636261 ∧
  decode 0x3800 0x3837363534333231 = .ingw 8 0x3837363534333231 ∧ decode 0x3000 0 = .ingw 0 0 ∧
  decode 0x3900 0 = .illegalIngwN9 0x3900 ∧ decode 0x4000 0 = .fin 0 ∧ decode 0x4100 0 = .fin 1 ∧
  decode 0x4200 0 = .fin 2 ∧ decode 0x4700 0 = .fin 7 ∧ decode 0x5080 0 = .tblrd 0x80 ∧
  decode 0x6000 0 = .reservedOp6to7 0x6000 ∧ decode 0x0ABC 0 = .nop

/-! ## Assembler -/

/-- What each statement of R69 and `ING` of R70 assemble to, `ING` to the expansion of its bytes where every one is at most
255 and to none otherwise, that an operand out of range is rejected, and that no statement assembles to an illegal command. The text of a line is the model's reading (notes/assumptions/10.md) and is not stated here. -/
def Obligations.AssemblerRejectsRangesAndEmitsNoIllegalCommand : Prop :=
  assemble .nop = some [(0x0000, 0)] ∧ assemble .clear = some [(0x1000, 0)] ∧
  (∀ b : Nat, assemble (.ingb b) = if b ≤ 255 then some [(0x2000 ||| BitVec.ofNat 16 b, 0)] else none) ∧
  (∀ n d : Nat, assemble (.ingw n d) =
    if n ≤ 8 ∧ d < 2 ^ 64 then some [(0x3000 ||| BitVec.ofNat 16 n <<< 8, BitVec.ofNat 64 d)] else none) ∧
  assemble (.finNamed hw.selBuffer) = some [(0x4000, 0)] ∧ assemble (.finNamed hw.selHex) = some [(0x4100, 0)] ∧
  assemble (.finNamed hw.selBase64) = some [(0x4200, 0)] ∧
  (∀ n : Nat, assemble (.fin n) = if n ≤ 15 then some [(0x4000 ||| BitVec.ofNat 16 n <<< 8, 0)] else none) ∧
  (∀ i : Nat, assemble (.tblrd i) = if i ≤ 255 then some [(0x5000 ||| BitVec.ofNat 16 i, 0)] else none) ∧
  (∀ bytes : List Nat, assemble (.ing bytes) =
    if ∀ b ∈ bytes, b ≤ 255 then some (ingExpansion (bytes.map (BitVec.ofNat 8))) else none) ∧
  (∀ (a : AsmStatement) (out : List (CmdWord × Word)), assemble a = some out →
    ∀ p ∈ out, (decode p.1 p.2).illegalWord = none)

/-- `ING` over `m` bytes is `floor(m / 8)` commands `INGW 8` and, where `m mod 8 ≠ 0`, one `INGW (m mod 8)`; byte `j` of a
group is in lane `j` and unused lanes are zero; and presenting the expansion ingests exactly those bytes. -/
def Obligations.IngExpansionIngestsItsBytes : Prop :=
  ∀ bytes : List Byte,
    (ingExpansion bytes).length = bytes.length / 8 + (if bytes.length % 8 = 0 then 0 else 1) ∧
    (∀ (g : Nat) (cmd : CmdWord) (data : Word), (ingExpansion bytes)[g]? = some (cmd, data) →
      cmd = 0x3000 ||| BitVec.ofNat 16 (if g < bytes.length / 8 then 8 else bytes.length % 8) <<< 8 ∧
      ∀ j < 8, data.extractLsb' (8 * j) 8 = bytes.getD (8 * g + j) 0) ∧
    (∀ s : State, runPort ((ingExpansion bytes).map fun p => .command p.1 p.2) s =
      .next { s with acc := ingest hw s.acc bytes, pending := [] })

/-! ## The table ROM -/

/-- R81: every entry of the ROM is `gen(i)`, eight shift-and-conditional-XOR steps for `POLY`; equivalently the bit reversal
of the remainder `(rev8(i) · x^64) mod G(x)`. -/
def Obligations.RomEntriesFollowTheConstruction : Prop :=
  ∀ i : Byte,
    romRead hw i =
      (fun c : Word => if c.getLsbD 0 then c >>> 1 ^^^ 0x9A6C9329AC4BC9B5 else c >>> 1)^[8] (i.setWidth 64) ∧
    romRead hw i = tableByDivision i

/-- The properties of R83: the zero entry, `T[0x80] = POLY`, linearity over XOR, and the halving relation between the
eight entries that fix the table. -/
def Obligations.RomIsLinear : Prop :=
  romRead hw 0 = 0 ∧ romRead hw 0x80 = hw.poly ∧
  (∀ a b : Byte, romRead hw (a ^^^ b) = romRead hw a ^^^ romRead hw b) ∧
  (∀ k : Nat, 1 ≤ k → k ≤ 7 →
    romRead hw (0x80 >>> k) =
      if (romRead hw (0x80 >>> (k - 1))).getLsbD 0 then romRead hw (0x80 >>> (k - 1)) >>> 1 ^^^ hw.poly
      else romRead hw (0x80 >>> (k - 1)) >>> 1)

/-- R85: TBLRD leaves the entry in `OUT[0..7]` little-endian, zeros in `OUT[8..15]` and `OUT_LEN` 8, and changes nothing
else. -/
def Obligations.TblrdReadsOneEntry : Prop :=
  (∀ (cmd : CmdWord) (data : Word), cmd &&& 0xF000 = 0x5000 → decode cmd data = .tblrd (cmd.extractLsb' 0 8)) ∧
  (∀ idx : Byte, encode (.tblrd idx) = (0x5000 ||| idx.setWidth 16, 0)) ∧
  (∀ (idx : Byte) (s : State), ∃ t : State, exec (.tblrd idx) s = .next t ∧
    (∀ (k : Nat) (_ : k < 16), t.out[k] = if k < 8 then (romRead hw idx).extractLsb' (8 * k) 8 else 0x00) ∧
    t.outLen = 8 ∧ t.acc = s.acc ∧ t.ill = s.ill ∧ t.pending = s.pending ∧ t.readLog = s.readLog)

/-! ## Ingest -/

/-- R90: `flip` is the ones'-complement. -/
def Obligations.FlipIsOnesComplement : Prop :=
  ∀ v : Word, (flipWord hw v).toNat = 2 ^ 64 - 1 - v.toNat ∧ flipWord hw v = ~~~v ∧ flipWord hw v = v ^^^ 0xFFFFFFFFFFFFFFFF

/-- R93: the byte step is the table entry at the low byte XOR `b`, XOR the working form shifted right by 8 with zeros in
the top byte. -/
def Obligations.ByteStepIsTableXorShift : Prop :=
  ∀ (w : Word) (b : Byte),
    byteStep hw w b = romRead hw (w.extractLsb' 0 8 ^^^ b) ^^^ w >>> 8 ∧ (w >>> 8).extractLsb' 56 8 = 0x00

/-- R98: an ingest runs through working forms, the first the flipped accumulator, each next one a byte step on the next
byte, and its result is the last one flipped; and an ingest command writes `ACC <- ingest(ACC, S)` for its bytes `S`. -/
def Obligations.IngestRunsThroughWorkingForms : Prop :=
  (∀ (acc : Word) (bytes : List Byte), ∃ w : Nat → Word,
    w 0 = flipWord hw acc ∧ (∀ (k : Nat) (h : k < bytes.length), w (k + 1) = byteStep hw (w k) bytes[k]) ∧
    ingest hw acc bytes = flipWord hw (w bytes.length)) ∧
  (∀ (b : Byte) (s : State), exec (.ingb b) s = .next { s with acc := ingest hw s.acc [b] }) ∧
  ∀ (n : Nibble) (data : Word) (s : State), n.toNat ≤ 8 →
    exec (.ingw n data) s = .next { s with
      acc := ingest hw s.acc ((List.range n.toNat).map fun k => data.extractLsb' (8 * k) 8) }

/-- R95: INGB decodes from `OP` 2 with every other bit than `BYTE` ignored, replaces `ACC` by flip, byte step, flip, and
changes nothing else; with the rule's three corner cases. -/
def Obligations.IngbUpdatesAccumulator : Prop :=
  (∀ (cmd : CmdWord) (data : Word), cmd &&& 0xF000 = 0x2000 → decode cmd data = .ingb (cmd.extractLsb' 0 8)) ∧
  (∀ b : Byte, encode (.ingb b) = (0x2000 ||| b.setWidth 16, 0)) ∧
  (∀ (b : Byte) (s : State), exec (.ingb b) s = .next { s with acc := flipWord hw (byteStep hw (flipWord hw s.acc) b) }) ∧
  flipWord hw (byteStep hw (flipWord hw 0) 0xFF) = 0xFF00000000000000 ∧
  flipWord hw (byteStep hw (flipWord hw 0xFFFFFFFFFFFFFFFF) 0x00) = 0xFFFFFFFFFFFFFFFF ∧
  flipWord hw (byteStep hw (flipWord hw 0) 0x00) = 0xD5DA5047EFEC8728

/-- R97: INGW with `N` ≤ 8 replaces `ACC` by the flipped fold of the byte step over lanes 0..`N`-1 and changes nothing else;
`N` = 0 is a no-op, `N` = 1 is INGB, lanes from `N` on are ignored; with `N` in 9..15 it raises `IllegalCommand` and
processes no byte. -/
def Obligations.IngwFoldsItsLanes : Prop :=
  (∀ (cmd : CmdWord) (data : Word), cmd &&& 0xF000 = 0x3000 → (cmd.extractLsb' 8 4).toNat ≤ 8 →
    decode cmd data = .ingw (cmd.extractLsb' 8 4) data) ∧
  (∀ (n : Nibble) (data : Word), encode (.ingw n data) = (0x3000 ||| n.setWidth 16 <<< 8, data)) ∧
  (∀ (n : Nibble) (data : Word) (s : State), n.toNat ≤ 8 →
    exec (.ingw n data) s = .next { s with
      acc := flipWord hw ((List.range n.toNat).foldl (fun w k => byteStep hw w (data.extractLsb' (8 * k) 8)) (flipWord hw s.acc)) }) ∧
  (∀ (data : Word) (s : State), exec (.ingw 0 data) s = .next s) ∧
  (∀ (data : Word) (s : State), exec (.ingw 1 data) s = exec (.ingb (data.extractLsb' 0 8)) s) ∧
  (∀ (n : Nibble) (data data' : Word) (s : State),
    (∀ k < n.toNat, data.extractLsb' (8 * k) 8 = data'.extractLsb' (8 * k) 8) →
    exec (.ingw n data) s = exec (.ingw n data') s) ∧
  (∀ (n : Nibble) (data : Word) (s : State), 8 < n.toNat → exec (.ingw n data) s = .next { s with ill := true })

/-- Empty ingest leaves the accumulator alone, because `flip` is its own inverse. -/
def Obligations.EmptyIngestLeavesAccumulator : Prop :=
  (∀ v : Word, flipWord hw (flipWord hw v) = v) ∧ (∀ acc : Word, ingest hw acc [] = acc) ∧
  ∀ (data : Word) (s : State), exec (.ingw 0 data) s = .next s

/-- The per-byte update in stored form, written out without `flip`, and the ingest as its fold. -/
def Obligations.StoredFormUpdate : Prop :=
  (∀ (acc : Word) (b : Byte), storedUpdate hw acc b =
    romRead hw (acc.extractLsb' 0 8 ^^^ ~~~b) ^^^ acc >>> 8 ^^^ 0xFF00000000000000) ∧
  (∀ (acc : Word) (b : Byte) (bytes : List Byte),
    ingest hw acc (b :: bytes) = ingest hw (storedUpdate hw acc b) bytes)

/-- Ingesting a stream in two parts, split anywhere, is ingesting it whole. -/
def Obligations.ChunkBoundaryIndependence : Prop :=
  ∀ (c : Config) (acc : Word) (xs ys : List Byte), ingest c (ingest c acc xs) ys = ingest c acc (xs ++ ys)

/-- Whatever inputs but CLEAR and reset the host presents, with every command but INGB and INGW among them, the accumulator
is then the ingest of the byte stream of those inputs; so any split of a stream into commands yields the same `ACC`. -/
def Obligations.AnyCommandSplitComputesTheStreamCrc : Prop :=
  ∀ (es : List PortEvent) (s : State), es.all keepsStream = true →
    ∃ t : State, runPort es s = .next t ∧ t.acc = ingest hw s.acc (streamOf es)

/-- Two hosts on one block: whatever interleaving `zs` of their inputs is presented, the byte chunks of `zs`, one for each
input, in the order of `zs`, interleave the two hosts' chunks, and the accumulator is the ingest of just these chunks one
after the other; so the bytes of one command are never split. That several hosts are one list of whole inputs is the
model's form, DEDUCED: notes/assumptions/15.md. -/
def Obligations.InterleavedHostsComputeTheInterleavedStream : Prop :=
  ∀ (xs ys zs : List PortEvent) (s : State), Interleaves xs ys zs → xs.all keepsStream = true → ys.all keepsStream = true →
    ∃ (chunks : List (List Byte)) (t : State),
      chunks = zs.map (fun e => streamOf [e]) ∧
      Interleaves (xs.map fun e => streamOf [e]) (ys.map fun e => streamOf [e]) chunks ∧
      runPort zs s = .next t ∧ t.acc = ingest hw s.acc chunks.flatten

/-- The table-driven byte step is eight bit steps of the division, for every working form. -/
def Obligations.ByteStepIsEightBitSteps : Prop :=
  ∀ (w : Word) (b : Byte), byteStep hw w b = reduceByte hw.poly (w ^^^ b.setWidth 64)

/-- From `ACC` = 0 the block computes the catalogued CRC of the byte stream: most-significant-first polynomial
`0xAD93D23594C93659`, reflected input and output, initial value and final XOR all ones. What a catalogue means by these words is PRESUMED:
notes/assumptions/12.md. -/
def Obligations.EngineEqualsCataloguedCrc : Prop :=
  ∀ bytes : List Byte, ingest hw 0 bytes = catalogueCrc bytes

/-- Two streams of one length that differ in exactly one bit never have the same result. The source requires this of a test
corpus only; that it holds of every such pair the spec marks as derived and from general knowledge, not in the source. -/
def Obligations.SingleBitFlipChangesTheResult : Prop :=
  ∀ (before after : List Byte) (b : Byte) (k : Nat), k < 8 →
    ingest hw 0 (before ++ b :: after) ≠ ingest hw 0 (before ++ (b ^^^ 1#8 <<< k) :: after)

/-- Ingesting a fixed stream loses nothing of the accumulator. -/
def Obligations.IngestIsInjectiveInTheAccumulator : Prop :=
  ∀ (bytes : List Byte) (acc acc' : Word), ingest hw acc bytes = ingest hw acc' bytes → acc = acc'

/-! ## Finalize -/

/-- R110: FIN writes the digest its selector names into `OUT`, zeros after it and its length into `OUT_LEN`, reads `ACC`
without changing it, changes nothing else, and done twice gives the same output twice. -/
def Obligations.FinWritesTheSelectedDigest : Prop :=
  (∀ (cmd : CmdWord) (data : Word), cmd &&& 0xF000 = 0x4000 → decode cmd data = .fin (cmd.extractLsb' 8 4)) ∧
  (∀ sel : Nibble, encode (.fin sel) = (0x4000 ||| sel.setWidth 16 <<< 8, 0)) ∧
  ∀ (sel : Nibble) (s : State),
    let bytes := if sel = 1 then encHex hw s.acc else if sel = 2 then encBase64 s.acc else encBuffer hw s.acc
    ∃ t : State, exec (.fin sel) s = .next t ∧
      (∀ (k : Nat) (_ : k < 16), t.out[k] = if h : k < bytes.length then bytes[k] else 0x00) ∧
      t.outLen.toNat = bytes.length ∧ bytes.length ≤ 16 ∧
      t.acc = s.acc ∧ t.ill = s.ill ∧ t.pending = s.pending ∧ t.readLog = s.readLog ∧
      exec (.fin sel) t = .next t

/-- R116 and R67: selectors 0, 1, 2 are buffer, hex and base64, and every other one is legal and exactly selector 0, with
`STATUS.ILL` unchanged. -/
def Obligations.UnrecognisedSelectorFallsBackToBuffer : Prop :=
  (∀ acc : Word, finalize hw 0 acc = encBuffer hw acc ∧ finalize hw 1 acc = encHex hw acc ∧
    finalize hw 2 acc = encBase64 acc) ∧
  ∀ (sel : Nibble) (s : State), 3 ≤ sel.toNat →
    (∀ data : Word, (decode (0x4000 ||| sel.setWidth 16 <<< 8) data).illegalWord = none) ∧
    exec (.fin sel) s = exec (.fin 0) s ∧ ∃ t : State, exec (.fin sel) s = .next t ∧ t.ill = s.ill

/-- R112: the buffer encoding is the 8 bytes of the accumulator in little-endian order; it is a bijection, and the
accumulator is the concatenation of `OUT[7]` down to `OUT[0]` after `FIN buffer`. -/
def Obligations.BufferIsLittleEndianBijection : Prop :=
  (∀ acc : Word, (encBuffer hw acc).length = 8 ∧ ∀ k < 8, (encBuffer hw acc).getD k 0 = acc.extractLsb' (8 * k) 8) ∧
  (∀ bytes : List Byte, bytes.length = 8 → ∃! acc : Word, encBuffer hw acc = bytes) ∧
  (∀ s : State, ∃ t : State, exec (.fin 0) s = .next t ∧
    t.out[7] ++ t.out[6] ++ t.out[5] ++ t.out[4] ++ t.out[3] ++ t.out[2] ++ t.out[1] ++ t.out[0] = s.acc)

/-- R113: the hex encoding is the numeric value in base 16, upper-case ASCII, most significant digit first; with `HEX_PAD`
16 digits, without it (this hardware) as many as the value has and one for zero. -/
def Obligations.HexIsTheNumericValueUpperCase : Prop :=
  hw.hexPad = false ∧
  ∀ (c : Config) (acc : Word),
    let n := (encHex c acc).length
    (c.hexPad = true → n = 16) ∧
    (c.hexPad = false → acc = 0 → n = 1) ∧
    (c.hexPad = false → acc ≠ 0 → 1 ≤ n ∧ n ≤ 16 ∧ 16 ^ (n - 1) ≤ acc.toNat ∧ acc.toNat < 16 ^ n) ∧
    ∀ j < n,
      let d := acc.extractLsb' (4 * (n - 1 - j)) 4
      (encHex c acc).getD j 0 = if d.toNat ≤ 9 then 0x30 + d.setWidth 8 else 0x41 + (d.setWidth 8 - 10)

/-- R114: the base64 encoding is 12 characters: those of the standard alphabet for the successive six-bit groups of the
8 buffer bytes and zero padding bits, and one `=`; the eleventh is one whose index is a multiple of 4. -/
def Obligations.Base64IsTheStandardEncoding : Prop :=
  let alphabet : List Byte :=
    (List.range 26).map (fun k => BitVec.ofNat 8 (0x41 + k)) ++ (List.range 26).map (fun k => BitVec.ofNat 8 (0x61 + k)) ++
    (List.range 10).map (fun k => BitVec.ofNat 8 (0x30 + k)) ++ [0x2B, 0x2F]
  ∀ acc : Word,
    let p := encBuffer hw acc
    let bits : BitVec 72 := p.getD 0 0 ++ p.getD 1 0 ++ p.getD 2 0 ++ p.getD 3 0 ++ p.getD 4 0 ++ p.getD 5 0 ++
      p.getD 6 0 ++ p.getD 7 0 ++ 0x00#8
    (encBase64 acc).length = 12 ∧ (encBase64 acc).getD 11 0 = 0x3D ∧
    (∀ j < 11, (encBase64 acc).getD j 0 = alphabet.getD (bits.extractLsb' (66 - 6 * j) 6).toNat 0) ∧
    ∃ m < 16, (encBase64 acc).getD 10 0 = alphabet.getD (4 * m) 0

/-- Decoding the base64 digest gives exactly the buffer digest, so the base64 encoding is injective. -/
def Obligations.Base64DecodesToBuffer : Prop :=
  (∀ acc : Word, base64Decode (encBase64 acc) = some (encBuffer hw acc)) ∧
  ∀ acc acc' : Word, encBase64 acc = encBase64 acc' → acc = acc'

/-- The hex digest read as a base-16 number is the accumulator, whatever `HEX_PAD` is, and so is the buffer digest read as a
little-endian number. -/
def Obligations.HexReadsBackAsTheAccumulator : Prop :=
  ∀ (c : Config) (acc : Word),
    readHex 0 (encHex c acc) = some acc.toNat ∧ littleEndianValue (encBuffer c acc) = acc.toNat

/-- After reset or CLEAR with nothing ingested the digests are eight zero bytes, the character `0`, and `AAAAAAAAAAA=`;
sixteen `0` characters in hex when `HEX_PAD` is true. -/
def Obligations.EmptyInputHasTheIdentityDigest : Prop :=
  ∀ s : State, s.acc = 0 →
    (∃ t : State, exec (.fin 0) s = .next t ∧ t.out = Vector.replicate 16 0x00 ∧ t.outLen = 8) ∧
    (∃ t : State, exec (.fin 1) s = .next t ∧ t.out = fillOut [0x30] ∧ t.outLen = 1) ∧
    (∃ t : State, exec (.fin 2) s = .next t ∧ t.out = fillOut (List.replicate 11 0x41 ++ [0x3D]) ∧ t.outLen = 12) ∧
    encHex { hw with hexPad := true } s.acc = List.replicate 16 0x30

/-- R111: FIN commands, inserted or deleted anywhere, change no later value of `ACC`; and two FINs with the same selector
and no INGB, INGW, CLEAR or reset between them write the same output. -/
def Obligations.FinalizeIsReadOnlyAndIdempotent : Prop :=
  (∀ (es : List PortEvent) (s : State), ∃ t u : State, runPort es s = .next t ∧
    runPort (es.filter fun e => !isFin e) s = .next u ∧ t.acc = u.acc) ∧
  ∀ (sel : Nibble) (es : List PortEvent) (s t u : State),
    (∀ e ∈ es, isReset e = false ∧ ∀ cmd data, e = .command cmd data →
      decode cmd data ≠ .clear ∧ (∀ b, decode cmd data ≠ .ingb b) ∧ ∀ n d, decode cmd data ≠ .ingw n d) →
    runPort [.command (0x4000 ||| sel.setWidth 16 <<< 8) 0] s = .next t →
    runPort (es ++ [.command (0x4000 ||| sel.setWidth 16 <<< 8) 0]) t = .next u →
    u.out = t.out ∧ u.outLen = t.outLen

/-! ## Control and illegal commands -/

/-- R130: `OP` 0 with any other bits and any `DATA` is NOP, and NOP changes no state. -/
def Obligations.NopChangesNothing : Prop :=
  (∀ (cmd : CmdWord) (data : Word), cmd &&& 0xF000 = 0x0000 → decode cmd data = .nop) ∧ encode .nop = (0x0000, 0) ∧
  ∀ s : State, exec .nop s = .next s

/-- R131: CLEAR sets `ACC` to zero and keeps `OUT`, `OUT_LEN` and `STATUS.ILL`; `FIN buffer` then gives eight zero bytes;
every other command keeps what was ingested and adds its own bytes. -/
def Obligations.ClearZeroesOnlyTheAccumulator : Prop :=
  (∀ (cmd : CmdWord) (data : Word), cmd &&& 0xF000 = 0x1000 → decode cmd data = .clear) ∧ encode .clear = (0x1000, 0) ∧
  (∀ s : State, exec .clear s = .next { s with acc := 0x0000000000000000 }) ∧
  (∀ s : State, ∃ t : State, exec (.fin 0) { s with acc := 0x0000000000000000 } = .next t ∧
    t.out = Vector.replicate 16 0x00 ∧ t.outLen = 8) ∧
  (∀ (i : Instr) (s : State), i.wf = true → i ≠ .clear →
    ∃ t : State, exec i s = .next t ∧ t.acc = ingest hw s.acc (ingestedBytes i))

/-- R132: the reserved opcodes `0x6`..`0xF`, with any other bits and any `DATA`, set `STATUS.ILL` and nothing else. -/
def Obligations.ReservedOpcodesSetIllOnly : Prop :=
  (∀ (cmd : CmdWord) (data : Word) (s : State), 6 ≤ (cmd.extractLsb' 12 4).toNat →
    (decode cmd data).illegalWord = some cmd ∧ exec (decode cmd data) s = .next { s with ill := true }) ∧
  (∀ (cmd : CmdWord) (s : State), exec (.reservedOp6to7 cmd) s = .next { s with ill := true } ∧
    exec (.reservedOp8toF cmd) s = .next { s with ill := true })

/-- The three illegal INGW rows of the opcode table complete, setting `STATUS.ILL` and nothing else. -/
def Obligations.IllegalIngwRowsSetIllOnly : Prop :=
  ∀ (cmd : CmdWord) (s : State),
    exec (.illegalIngwN9 cmd) s = .next { s with ill := true } ∧
    exec (.illegalIngwN10to11 cmd) s = .next { s with ill := true } ∧
    exec (.illegalIngwN12to15 cmd) s = .next { s with ill := true }

/-- R141: the two causes of `IllegalCommand` and no other, its effect, that the block then takes the next input, and that
only a reset clears `STATUS.ILL`, CLEAR not. -/
def Obligations.IllegalCommandSetsTheStickyBit : Prop :=
  (∀ (cmd : CmdWord) (data : Word), (decode cmd data).illegalWord =
    if 6 ≤ (cmd.extractLsb' 12 4).toNat ∨ (cmd.extractLsb' 12 4 = 0x3 ∧ 9 ≤ (cmd.extractLsb' 8 4).toNat)
    then some cmd else none) ∧
  (∀ (cmd : CmdWord) (data : Word) (rest : List PortEvent) (s : State), (decode cmd data).illegalWord = some cmd →
    s.pending = .command cmd data :: rest → step s = .next { s with ill := true, pending := rest }) ∧
  (∀ (cmd : CmdWord) (data : Word) (s t : State), (decode cmd data).illegalWord = none →
    exec (decode cmd data) s = .next t → t.ill = s.ill) ∧
  (∀ s t : State, s.ill = true → step s = .next t → t.ill = false →
    ∃ rest : List PortEvent, s.pending = .reset :: rest ∨ s.pending = .powerCycle :: rest) ∧
  (∀ s : State, ∃ t : State, exec .clear s = .next t ∧ t.ill = s.ill)

/-- R28: `STATUS` as the host reads it has `ILL` in bit 0 and zeros in bits 7:1; `ILL` is 0 after reset, and after any
inputs with no reset among them it is 1 exactly if it was before or one of them was an illegal command. -/
def Obligations.StatusReportsIllegalCommandsSinceReset : Prop :=
  (∀ s : State, (hostRead s 0x11).getLsbD 0 = s.ill ∧ ∀ k, 1 ≤ k → (hostRead s 0x11).getLsbD k = false) ∧
  State.reset.ill = false ∧
  (∀ s : State, s.resetBlock.ill = false) ∧
  ∀ (es : List PortEvent) (s : State), es.all (fun e => !isReset e) = true →
    ∃ t : State, runPort es s = .next t ∧ t.ill = (s.ill || es.any isIllegal)

/-! ## Reset -/

/-- R160: a reset step gives every architectural field its reset value, and the state after reset has these values; the ROM
is configuration and no field of the state, so a reset has nothing of it to change. -/
def Obligations.ResetGivesEveryFieldItsValue : Prop :=
  (State.reset.acc = 0x0000000000000000 ∧ (∀ (k : Nat) (_ : k < 16), State.reset.out[k] = 0x00) ∧
    State.reset.outLen = 0 ∧ State.reset.ill = false) ∧
  ∀ (s : State) (rest : List PortEvent), s.pending = .reset :: rest →
    ∃ t : State, step s = .next t ∧ t.acc = 0x0000000000000000 ∧ (∀ (k : Nat) (_ : k < 16), t.out[k] = 0x00) ∧
      t.outLen = 0 ∧ t.ill = false

/-- Reset and CLEAR both zero `ACC` and differ only in `OUT`, `OUT_LEN` and `STATUS.ILL`; power lost and returning is a
reset (the model's event for it: notes/assumptions/5.md). That both leave the inputs still to come and the record of
reads alone is the model's: notes/assumptions/1.md and 3.md. -/
def Obligations.ResetAndClearDifferOnlyInOutputAndIll : Prop :=
  ∀ (s : State) (rest : List PortEvent) (cmd : CmdWord) (data : Word), cmd &&& 0xF000 = 0x1000 →
    ∃ t u : State,
      step { s with pending := .command cmd data :: rest } = .next t ∧ step { s with pending := .reset :: rest } = .next u ∧
      step { s with pending := .powerCycle :: rest } = .next u ∧
      t.acc = u.acc ∧ t.pending = u.pending ∧ t.readLog = u.readLog ∧ u.pending = rest ∧ u.readLog = s.readLog ∧
      t.out = s.out ∧ t.outLen = s.outLen ∧ t.ill = s.ill ∧
      u.out = Vector.replicate 16 0x00 ∧ u.outLen = 0 ∧ u.ill = false

/-! ## Ports and steps -/

/-- R45: the host read map, address by address; a read has no side effect on the block and a second read of the same
address gives the same value. (That the value goes to `readLog` is the model's own: notes/assumptions/3.md.) -/
def Obligations.HostReadMapAndNoSideEffect : Prop :=
  (∀ (s : State) (addr : Byte),
    (∀ h : addr.toNat < 16, hostRead s addr = s.out[addr.toNat]) ∧
    (addr = 0x10 → hostRead s addr = s.outLen) ∧
    (addr = 0x11 → hostRead s addr = if s.ill then 0x01 else 0x00) ∧
    (0x12 ≤ addr.toNat → hostRead s addr = 0x00)) ∧
  (∀ (s : State) (addr : Byte) (rest : List PortEvent), s.pending = .read addr :: rest →
    step s = .next { s with pending := rest, readLog := s.readLog ++ [(addr, hostRead s addr)] }) ∧
  (∀ (s t : State) (addr addr' : Byte) (rest : List PortEvent), s.pending = .read addr :: rest → step s = .next t →
    hostRead t addr' = hostRead s addr')

/-- Every host read returns what the inputs before it left: after any sequence of inputs a read answers from the state
they leave, and changes nothing of it. -/
def Obligations.HostReadSeesEveryEarlierInput : Prop :=
  ∀ (es : List PortEvent) (addr : Byte) (s : State), ∃ t : State, runPort es s = .next t ∧
    runPort (es ++ [.read addr]) s = .next { t with readLog := t.readLog ++ [(addr, hostRead t addr)] }

/-- A step on a command at the port is the decoded command on the state from which it has been taken: one atomic step, the
commands in the order the host issues them. That the command comes off the list of pending inputs is the model's DESIGN
CHOICE: notes/assumptions/1.md. -/
def Obligations.StepRunsTheDecodedCommand : Prop :=
  ∀ (s : State) (cmd : CmdWord) (data : Word) (rest : List PortEvent), s.pending = .command cmd data :: rest →
    (decode cmd data).wf = true ∧ step s = exec (decode cmd data) { s with pending := rest }

/-- Every command and every step completes: there is no trap, no stop and no stall. -/
def Obligations.EveryStepCompletes : Prop :=
  (∀ (i : Instr) (s : State), ∃ t : State, exec i s = .next t) ∧ ∀ s : State, ∃ t : State, step s = .next t

/-- Between commands the block holds all its state (that a step with nothing at the ports is idling is the model's:
notes/assumptions/4.md). -/
def Obligations.IdleBlockHoldsItsState : Prop :=
  ∀ s : State, s.pending = [] → step s = .next s

/-! ## Whole-machine rules -/

/-- `OUT_LEN` stays in 0..16 and `OUT` stays `0x00` past it, whatever the step. -/
def Obligations.OutputShapeIsKeptByEveryStep : Prop :=
  ∀ s t : State, s.outputOk → step s = .next t → t.outputOk

/-- The state after reset has that shape. -/
def Obligations.ResetHasTheOutputShape : Prop := State.reset.outputOk

/-- R21: `ACC` is zero after reset, and of all inputs only INGB, INGW, CLEAR and reset change it; FIN, TBLRD, NOP, illegal
commands and host reads never do. -/
def Obligations.OnlyIngestClearAndResetWriteAcc : Prop :=
  State.reset.acc = 0x0000000000000000 ∧
  ∀ s t : State, step s = .next t → t.acc ≠ s.acc →
    (∃ cmd data rest, s.pending = .command cmd data :: rest ∧
      ((∃ b, decode cmd data = .ingb b) ∨ (∃ n d, decode cmd data = .ingw n d) ∨ decode cmd data = .clear)) ∨
    (∃ rest, s.pending = .reset :: rest ∨ s.pending = .powerCycle :: rest)

/-- R26: FIN and TBLRD write all 16 bytes of `OUT`, the result bytes and then zeros; no other command writes it; it is zero
after reset, and it holds its value until the next FIN, TBLRD or reset. -/
def Obligations.OnlyFinAndTblrdWriteOut : Prop :=
  (∀ (i : Instr) (s : State), (∃ sel, i = .fin sel) ∨ (∃ idx, i = .tblrd idx) →
    ∃ (bytes : List Byte) (t : State), exec i s = .next t ∧ bytes.length = t.outLen.toNat ∧ t.outLen.toNat ≤ 16 ∧
      (∀ acc, i = .fin acc → bytes = finalize hw acc s.acc) ∧ (∀ idx, i = .tblrd idx → bytes = byteLanes 8 (romRead hw idx)) ∧
      ∀ (k : Nat) (_ : k < 16), t.out[k] = if k < t.outLen.toNat then bytes.getD k 0 else 0x00) ∧
  (∀ (i : Instr) (s t : State), exec i s = .next t →
    (∃ sel, i = .fin sel) ∨ (∃ idx, i = .tblrd idx) ∨ t.out = s.out) ∧
  State.reset.out = Vector.replicate 16 0x00 ∧
  ∀ (es : List PortEvent) (s : State), es.all (fun e => !writesOut e) = true →
    ∃ t : State, runPort es s = .next t ∧ t.out = s.out

/-- R27: `OUT_LEN` is 0 after reset; FIN writes 8 for buffer (and the fallback), 12 for base64 and 1..16 for hex, TBLRD
writes 8; no other command writes it, and no step from a value in 0..16 leaves that range. -/
def Obligations.OutLenIsTheResultLength : Prop :=
  State.reset.outLen = 0 ∧
  (∀ (sel : Nibble) (s : State), ∃ t : State, exec (.fin sel) s = .next t ∧
    (sel ≠ 1 → sel ≠ 2 → t.outLen = 8) ∧ (sel = 2 → t.outLen = 12) ∧
    (sel = 1 → 1 ≤ t.outLen.toNat ∧ t.outLen.toNat ≤ 16 ∧ t.outLen.toNat = (encHex hw s.acc).length)) ∧
  (∀ (idx : Byte) (s : State), ∃ t : State, exec (.tblrd idx) s = .next t ∧ t.outLen = 8) ∧
  (∀ (i : Instr) (s t : State), exec i s = .next t →
    (∃ sel, i = .fin sel) ∨ (∃ idx, i = .tblrd idx) ∨ t.outLen = s.outLen) ∧
  (∀ s t : State, s.outLen.toNat ≤ 16 → step s = .next t → t.outLen.toNat ≤ 16)

/-- The frame of INGB, legal INGW and CLEAR: nothing but `ACC` changes, and every host address reads as before. -/
def Obligations.IngestAndClearFrame : Prop :=
  ∀ (i : Instr) (s t : State),
    (i = .clear ∨ (∃ b, i = .ingb b) ∨ (∃ n data, i = .ingw n data ∧ n.toNat ≤ 8)) → exec i s = .next t →
    t.out = s.out ∧ t.outLen = s.outLen ∧ t.ill = s.ill ∧ t.pending = s.pending ∧ t.readLog = s.readLog ∧
    ∀ addr : Byte, hostRead t addr = hostRead s addr

/-- The frame of FIN and TBLRD: nothing but `OUT` and `OUT_LEN` changes; every host address but theirs reads as before. -/
def Obligations.FinAndTblrdFrame : Prop :=
  ∀ (i : Instr) (s t : State), ((∃ sel, i = .fin sel) ∨ (∃ idx, i = .tblrd idx)) → exec i s = .next t →
    t.acc = s.acc ∧ t.ill = s.ill ∧ t.pending = s.pending ∧ t.readLog = s.readLog ∧
    ∀ addr : Byte, 0x11 ≤ addr.toNat → hostRead t addr = hostRead s addr

/-- The frame of NOP and of every illegal command: nothing but `STATUS.ILL` can change, and every host address but `STATUS`
reads as before. -/
def Obligations.NopAndIllegalFrame : Prop :=
  ∀ (i : Instr) (s t : State),
    (i = .nop ∨ i.illegalWord.isSome ∨ (∃ n data, i = .ingw n data ∧ 8 < n.toNat)) → exec i s = .next t →
    t.acc = s.acc ∧ t.out = s.out ∧ t.outLen = s.outLen ∧ t.pending = s.pending ∧ t.readLog = s.readLog ∧
    (i = .nop → t.ill = s.ill) ∧ ∀ addr : Byte, addr ≠ 0x11 → hostRead t addr = hostRead s addr

/-- `ACC` reaches the host only through FIN: over any inputs with no FIN among them, two runs that differ in `ACC` alone
answer every host read alike. -/
def Obligations.AccumulatorIsVisibleOnlyThroughFin : Prop :=
  ∀ (es : List PortEvent) (s : State) (v : Word), es.all (fun e => !isFin e) = true →
    ∃ t u : State, runPort es s = .next t ∧ runPort es { s with acc := v } = .next u ∧
      t.readLog = u.readLog ∧ t.out = u.out ∧ t.outLen = u.outLen ∧ t.ill = u.ill

/-- The output buffer is a snapshot: over any inputs without FIN, TBLRD and reset, ingests among them, the host reads the
same output as before. -/
def Obligations.OutputIsASnapshot : Prop :=
  ∀ (es : List PortEvent) (s : State), es.all (fun e => !writesOut e) = true →
    ∃ t : State, runPort es s = .next t ∧ ∀ addr : Byte, addr.toNat ≤ 0x10 → hostRead t addr = hostRead s addr

/-- The procedure for one checksum, from any state in which no command was illegal: CLEAR, ingest commands for the bytes,
FIN, then reading `OUT_LEN`, the sixteen output bytes and `STATUS` answers the length and the digest of exactly those bytes
in the selected encoding, zeros after it, and `ILL` = 0. -/
def Obligations.ChecksumProcedureReadsTheDigest : Prop :=
  ∀ (sel : Nibble) (es : List PortEvent) (s : State), s.safe →
    (∀ e ∈ es, ∃ cmd data, e = .command cmd data ∧ ((∃ b, decode cmd data = .ingb b) ∨ ∃ n d, decode cmd data = .ingw n d)) →
    ∃ t : State, runPort (checksumInputs sel es) s = .next t ∧
      t.readLog = s.readLog ++ checksumAnswers (finalize hw sel (ingest hw 0 (streamOf es)))

/-- Several instances: under every schedule each one is where its own steps alone would have brought it (the list of
instances is the model's own form: notes/assumptions/11.md). -/
def Obligations.BlocksAreIndependent : Prop :=
  ∀ (schedule : List Nat) (blocks : List State), ∃ blocks' : List State,
    runBlocks schedule blocks = .next blocks' ∧ blocks'.length = blocks.length ∧
    ∀ (k : Nat) (s : State), blocks[k]? = some s →
      ∃ t : State, blocks'[k]? = some t ∧ runSteps (schedule.count k) s = .next t

/-! ## Parameters -/

/-- The parameters of the block: the value this hardware takes for each, what each one determines on the block of any
configuration, and that this hardware is the block of its configuration. That the sizes are those of the storage types is
the model's DESIGN CHOICE: notes/assumptions/9.md. -/
def Obligations.ParametersDetermineTheBlock : Prop :=
  (hw.accWidth = 64 ∧ hw.tableEntries = 256 ∧ hw.tableWidth = 64 ∧ hw.poly = 0x9A6C9329AC4BC9B5 ∧
    hw.romTable.toList = romEntries ∧ hw.accInit = 0x0000000000000000 ∧ hw.flipMask = 0xFFFFFFFFFFFFFFFF ∧
    hw.cmdWidth = 16 ∧ hw.dataWidth = 64 ∧ hw.ingwMax = 8 ∧ hw.outBytes = 16 ∧ hw.hexPad = false ∧
    hw.selBuffer = 0 ∧ hw.selHex = 1 ∧ hw.selBase64 = 2) ∧
  (∀ c : Config,
    Word = BitVec c.accWidth ∧ Word = BitVec c.tableWidth ∧ Word = BitVec c.dataWidth ∧ CmdWord = BitVec c.cmdWidth ∧
    Vector Byte 16 = Vector Byte c.outBytes ∧
    (State.resetOf c).acc = c.accInit ∧ (∀ v : Word, flipWord c v = v ^^^ c.flipMask) ∧
    (∀ (i : Byte) (h : i.toNat < c.tableEntries), romRead c i = c.romTable[i.toNat]) ∧
    (∀ (cmd : CmdWord) (data : Word), cmd.extractLsb' 12 4 = 0x3 →
      ((decodeOf c cmd data).illegalWord = none ↔ (cmd.extractLsb' 8 4).toNat ≤ c.ingwMax)) ∧
    ∀ s : State, execOf c .clear s = .next { s with acc := c.accInit } ∧
      (∀ b : Byte, execOf c (.ingb b) s = .next { s with acc := ingest c s.acc [b] }) ∧
      (∀ (n : Nibble) (data : Word), execOf c (.ingw n data) s =
        if n.toNat ≤ c.ingwMax then .next { s with acc := ingest c s.acc (byteLanes n.toNat data) }
        else .next { s with ill := true }) ∧
      (∀ sel : Nibble, execOf c (.fin sel) s = .next (s.writeOut
        (if sel = c.selHex then encHex c s.acc else if sel = c.selBase64 then encBase64 s.acc else encBuffer c s.acc)))) ∧
  (∀ (cmd : CmdWord) (data : Word), decode cmd data = decodeOf hw cmd data) ∧
  (∀ (i : Instr) (s : State), exec i s = execOf hw i s) ∧ (∀ s : State, step s = stepOf hw s) ∧
  State.reset = State.resetOf hw
end

