-- ==== Sys2Proof/Laws/State.lean ====
section
/-! SUPPORT. The parameter values and, for each update of the state, what every field then holds. -/

namespace Sys2Proof.Machine

@[simp] theorem hw_poly : hw.poly = 0x9A6C9329AC4BC9B5#64 := rfl
@[simp] theorem hw_accInit : hw.accInit = 0#64 := rfl
@[simp] theorem hw_flipMask : hw.flipMask = 0xFFFFFFFFFFFFFFFF#64 := rfl
@[simp] theorem hw_ingwMax : hw.ingwMax = 8 := rfl
@[simp] theorem hw_hexPad : hw.hexPad = false := rfl
@[simp] theorem hw_selBuffer : hw.selBuffer = 0#4 := rfl
@[simp] theorem hw_selHex : hw.selHex = 1#4 := rfl
@[simp] theorem hw_selBase64 : hw.selBase64 = 2#4 := rfl

@[simp] theorem resetOf_acc (c : Config) : (State.resetOf c).acc = c.accInit := rfl
@[simp] theorem resetOf_out (c : Config) : (State.resetOf c).out = Vector.replicate 16 0#8 := rfl
@[simp] theorem resetOf_outLen (c : Config) : (State.resetOf c).outLen = 0#8 := rfl
@[simp] theorem resetOf_ill (c : Config) : (State.resetOf c).ill = false := rfl
@[simp] theorem reset_acc : State.reset.acc = 0#64 := rfl
@[simp] theorem reset_out : State.reset.out = Vector.replicate 16 0#8 := rfl
@[simp] theorem reset_outLen : State.reset.outLen = 0#8 := rfl
@[simp] theorem reset_ill : State.reset.ill = false := rfl
@[simp] theorem reset_pending : State.reset.pending = [] := rfl
@[simp] theorem reset_readLog : State.reset.readLog = [] := rfl

section
variable (s : State) (v : Word) (bytes : List Byte) (cmd : CmdWord) (addr : Byte)

@[simp] theorem setAcc_acc : (s.setAcc v).acc = v := rfl
@[simp] theorem setAcc_out : (s.setAcc v).out = s.out := rfl
@[simp] theorem setAcc_outLen : (s.setAcc v).outLen = s.outLen := rfl
@[simp] theorem setAcc_ill : (s.setAcc v).ill = s.ill := rfl
@[simp] theorem setAcc_pending : (s.setAcc v).pending = s.pending := rfl
@[simp] theorem setAcc_readLog : (s.setAcc v).readLog = s.readLog := rfl

@[simp] theorem writeOut_acc : (s.writeOut bytes).acc = s.acc := by simp only [State.writeOut]
@[simp] theorem writeOut_out : (s.writeOut bytes).out = fillOut bytes := by simp only [State.writeOut]
@[simp] theorem writeOut_outLen : (s.writeOut bytes).outLen = BitVec.ofNat 8 bytes.length := by simp only [State.writeOut]
@[simp] theorem writeOut_ill : (s.writeOut bytes).ill = s.ill := by simp only [State.writeOut]
@[simp] theorem writeOut_pending : (s.writeOut bytes).pending = s.pending := by simp only [State.writeOut]
@[simp] theorem writeOut_readLog : (s.writeOut bytes).readLog = s.readLog := by simp only [State.writeOut]

@[simp] theorem raiseIllegalCommand_acc : (s.raiseIllegalCommand cmd).acc = s.acc := rfl
@[simp] theorem raiseIllegalCommand_out : (s.raiseIllegalCommand cmd).out = s.out := rfl
@[simp] theorem raiseIllegalCommand_outLen : (s.raiseIllegalCommand cmd).outLen = s.outLen := rfl
@[simp] theorem raiseIllegalCommand_ill : (s.raiseIllegalCommand cmd).ill = true := rfl
@[simp] theorem raiseIllegalCommand_pending : (s.raiseIllegalCommand cmd).pending = s.pending := rfl
@[simp] theorem raiseIllegalCommand_readLog : (s.raiseIllegalCommand cmd).readLog = s.readLog := rfl

@[simp] theorem resetBlock_acc : s.resetBlock.acc = 0#64 := rfl
@[simp] theorem resetBlock_out : s.resetBlock.out = Vector.replicate 16 0#8 := rfl
@[simp] theorem resetBlock_outLen : s.resetBlock.outLen = 0#8 := rfl
@[simp] theorem resetBlock_ill : s.resetBlock.ill = false := rfl
@[simp] theorem resetBlock_pending : s.resetBlock.pending = s.pending := rfl
@[simp] theorem resetBlock_readLog : s.resetBlock.readLog = s.readLog := rfl

@[simp] theorem answerRead_acc : (s.answerRead addr).acc = s.acc := rfl
@[simp] theorem answerRead_out : (s.answerRead addr).out = s.out := rfl
@[simp] theorem answerRead_outLen : (s.answerRead addr).outLen = s.outLen := rfl
@[simp] theorem answerRead_ill : (s.answerRead addr).ill = s.ill := rfl
@[simp] theorem answerRead_pending : (s.answerRead addr).pending = s.pending := rfl
@[simp] theorem answerRead_readLog :
    (s.answerRead addr).readLog = s.readLog ++ [(addr, hostRead s addr)] := rfl

end

end Sys2Proof.Machine
end

