-- ==== Sys2Proof/Laws/Decode.lean ====
section
/-! SUPPORT. The decoder by opcode: one lemma per arm, and all arms said once. -/

namespace Sys2Proof

section
variable (cmd : CmdWord) (data : Word)

theorem decode_op0 (h : cmdOp cmd = 0#4) : decode cmd data = .nop := by simp [decode, decodeOf, h]

theorem decode_op1 (h : cmdOp cmd = 1#4) : decode cmd data = .clear := by simp [decode, decodeOf, h]

theorem decode_op2 (h : cmdOp cmd = 2#4) : decode cmd data = .ingb (cmdB cmd) := by simp [decode, decodeOf, h]

theorem decode_op3_legal (h : cmdOp cmd = 3#4) (hn : (cmdA cmd).toNat ≤ 8) :
    decode cmd data = .ingw (cmdA cmd) data := by simp [decode, decodeOf, h, hn]

theorem decode_op3_illegal (h : cmdOp cmd = 3#4) (hn : 8 < (cmdA cmd).toNat) :
    decode cmd data = decodeIllegalIngw cmd := by
  have hn' : ¬ (cmdA cmd).toNat ≤ 8 := by omega
  simp [decode, decodeOf, h, hn']

theorem decode_op4 (h : cmdOp cmd = 4#4) : decode cmd data = .fin (cmdA cmd) := by simp [decode, decodeOf, h]

theorem decode_op5 (h : cmdOp cmd = 5#4) : decode cmd data = .tblrd (cmdB cmd) := by simp [decode, decodeOf, h]

theorem decode_reserved (h : 6 ≤ (cmdOp cmd).toNat) : decode cmd data = decodeReserved cmd := by
  have hne : ∀ k : Nibble, k.toNat < 6 → cmdOp cmd ≠ k := fun k hk e => by rw [e] at h; omega
  simp [decode, decodeOf, hne]

theorem decodeIllegalIngw_illegalWord : (decodeIllegalIngw cmd).illegalWord = some cmd := by
  unfold decodeIllegalIngw
  split
  · rfl
  · split <;> rfl

theorem decodeReserved_illegalWord : (decodeReserved cmd).illegalWord = some cmd := by
  unfold decodeReserved
  split <;> rfl

theorem wf_ingw (n : Nibble) : (Instr.ingw n data).wf = true ↔ n.toNat ≤ 8 := by
  simp [Instr.wf, Nat.ble_eq]

/-- Every word decodes by one of these arms. -/
theorem decode_cases :
    (cmdOp cmd = 0#4 ∧ decode cmd data = .nop) ∨ (cmdOp cmd = 1#4 ∧ decode cmd data = .clear) ∨
    (cmdOp cmd = 2#4 ∧ decode cmd data = .ingb (cmdB cmd)) ∨
    (cmdOp cmd = 3#4 ∧ (cmdA cmd).toNat ≤ 8 ∧ decode cmd data = .ingw (cmdA cmd) data) ∨
    (cmdOp cmd = 3#4 ∧ 8 < (cmdA cmd).toNat ∧ decode cmd data = decodeIllegalIngw cmd) ∨
    (cmdOp cmd = 4#4 ∧ decode cmd data = .fin (cmdA cmd)) ∨
    (cmdOp cmd = 5#4 ∧ decode cmd data = .tblrd (cmdB cmd)) ∨
    (6 ≤ (cmdOp cmd).toNat ∧ decode cmd data = decodeReserved cmd) := by
  have h : ∀ x : Nibble, x = 0#4 ∨ x = 1#4 ∨ x = 2#4 ∨ x = 3#4 ∨ x = 4#4 ∨ x = 5#4 ∨ 6 ≤ x.toNat := by decide
  rcases h (cmdOp cmd) with h | h | h | h | h | h | h
  · exact .inl ⟨h, decode_op0 cmd data h⟩
  · exact .inr (.inl ⟨h, decode_op1 cmd data h⟩)
  · exact .inr (.inr (.inl ⟨h, decode_op2 cmd data h⟩))
  · by_cases hn : (cmdA cmd).toNat ≤ 8
    · exact .inr (.inr (.inr (.inl ⟨h, hn, decode_op3_legal cmd data h hn⟩)))
    · exact .inr (.inr (.inr (.inr (.inl ⟨h, by omega, decode_op3_illegal cmd data h (by omega)⟩))))
  · exact .inr (.inr (.inr (.inr (.inr (.inl ⟨h, decode_op4 cmd data h⟩)))))
  · exact .inr (.inr (.inr (.inr (.inr (.inr (.inl ⟨h, decode_op5 cmd data h⟩))))))
  · exact .inr (.inr (.inr (.inr (.inr (.inr (.inr ⟨h, decode_reserved cmd data h⟩))))))

end

end Sys2Proof
end

