-- ==== Sys2Proof/Laws/Ops.lean ====
section
/-! SUPPORT. What the shared operations compute: the output buffer, the host read map, byte lanes. -/

namespace Sys2Proof.Machine

@[simp] theorem fillOut_getElem (bytes : List Byte) (k : Nat) (hk : k < 16) :
    (fillOut bytes)[k] = bytes.getD k 0#8 := by
  simp [fillOut]

theorem status_eq (s : State) : s.status = if s.ill then 1#8 else 0#8 := by
  cases h : s.ill <;> simp [State.status, h]

theorem hostRead_out (s : State) (addr : Byte) (h : addr.toNat < 16) : hostRead s addr = s.out[addr.toNat] := by
  simp [hostRead, hostReadOf, h]

@[simp] theorem hostRead_outLen (s : State) : hostRead s 0x10#8 = s.outLen := rfl

@[simp] theorem hostRead_status (s : State) : hostRead s 0x11#8 = s.status := rfl

theorem hostRead_reserved (s : State) (addr : Byte) (h : 0x12#8 ≤ addr) : hostRead s addr = 0#8 := by
  have hn : 18 ≤ addr.toNat := h
  have h0 : ¬ addr.toNat < 16 := by omega
  have h1 : addr ≠ 0x10#8 := by rintro rfl; simp at hn
  have h2 : addr ≠ 0x11#8 := by rintro rfl; simp at hn
  simp [hostRead, hostReadOf, h0, h1, h2]

/-- A host read depends on `OUT`, `OUT_LEN` and `STATUS.ILL` alone (R45). -/
theorem hostRead_congr {s t : State} (ho : s.out = t.out) (hl : s.outLen = t.outLen) (hi : s.ill = t.ill)
    (addr : Byte) : hostRead s addr = hostRead t addr := by
  simp [hostRead, hostReadOf, State.status, ho, hl, hi]

@[simp] theorem byteLanes_zero (v : Word) : byteLanes 0 v = [] := rfl

@[simp] theorem byteLanes_length (n : Nat) (v : Word) : (byteLanes n v).length = n := by
  simp [byteLanes]

theorem byteLanes_succ (n : Nat) (v : Word) : byteLanes (n + 1) v = byteLanes n v ++ [byteLane v n] := by
  simp [byteLanes, List.range_succ]

theorem byteLanes_congr {n : Nat} {v w : Word} (h : ∀ k < n, byteLane v k = byteLane w k) :
    byteLanes n v = byteLanes n w := by
  simpa [byteLanes] using h

theorem byteLanes_getD (n : Nat) (v : Word) (k : Nat) (hk : k < n) : (byteLanes n v).getD k 0#8 = byteLane v k := by
  simp [byteLanes, List.getD, hk]

end Sys2Proof.Machine
end

