-- ==== Sys2Proof/Laws/Exec.lean ====
section
/-! SUPPORT. The next state of each command, and what a command can change, said once. -/

namespace Sys2Proof.Machine

section
variable (s : State)

@[simp] theorem exec_nop : exec .nop s = .next s := rfl
@[simp] theorem exec_clear : exec .clear s = .next (s.setAcc 0#64) := rfl
@[simp] theorem exec_ingb (b : Byte) : exec (.ingb b) s = .next (s.setAcc (ingest hw s.acc [b])) := rfl
@[simp] theorem exec_fin (sel : Nibble) : exec (.fin sel) s = .next (s.writeOut (finalize hw sel s.acc)) := rfl
@[simp] theorem exec_tblrd (idx : Byte) : exec (.tblrd idx) s = .next (s.writeOut (byteLanes 8 (romRead hw idx))) := rfl

theorem exec_ingw_legal (n : Nibble) (data : Word) (h : n.toNat ≤ 8) :
    exec (.ingw n data) s = .next (s.setAcc (ingest hw s.acc (byteLanes n.toNat data))) := by
  simp [exec, execIngw, ingwOf, h]

theorem exec_ingw_illegal (n : Nibble) (data : Word) (h : 8 < n.toNat) :
    exec (.ingw n data) s = .next { s with ill := true } := by
  have h' : ¬ n.toNat ≤ 8 := by omega
  simp [exec, execIngw, ingwOf, h', State.raiseIllegalCommand]

theorem exec_illegalWord {i : Instr} (h : i.illegalWord.isSome) : exec i s = .next { s with ill := true } := by
  cases i <;> simp [Instr.illegalWord] at h <;> rfl

end

/-- The whole of what a command can do: it sets `ACC`, or writes the output buffer from `ACC` and the ROM, or raises
`IllegalCommand`, or nothing. -/
theorem exec_cases {i : Instr} {s t : State} (h : exec i s = .next t) :
    (i = .nop ∧ t = s) ∨ (i = .clear ∧ t = s.setAcc 0#64) ∨
    (∃ b, i = .ingb b ∧ t = s.setAcc (ingest hw s.acc [b])) ∨
    (∃ n data, i = .ingw n data ∧ n.toNat ≤ 8 ∧ t = s.setAcc (ingest hw s.acc (byteLanes n.toNat data))) ∨
    (∃ n data, i = .ingw n data ∧ 8 < n.toNat ∧ t = { s with ill := true }) ∨
    (∃ sel, i = .fin sel ∧ t = s.writeOut (finalize hw sel s.acc)) ∨
    (∃ idx, i = .tblrd idx ∧ t = s.writeOut (byteLanes 8 (romRead hw idx))) ∨
    (i.illegalWord.isSome ∧ t = { s with ill := true }) := by
  cases i with
  | nop => exact .inl ⟨rfl, by simpa using h.symm⟩
  | clear => exact .inr (.inl ⟨rfl, by simpa using h.symm⟩)
  | ingb b => exact .inr (.inr (.inl ⟨b, rfl, by simpa using h.symm⟩))
  | ingw n data =>
    by_cases hn : n.toNat ≤ 8
    · rw [exec_ingw_legal s n data hn] at h
      exact .inr (.inr (.inr (.inl ⟨n, data, rfl, hn, by simpa using h.symm⟩)))
    · rw [exec_ingw_illegal s n data (by omega)] at h
      exact .inr (.inr (.inr (.inr (.inl ⟨n, data, rfl, by omega, by simpa using h.symm⟩))))
  | fin sel => exact .inr (.inr (.inr (.inr (.inr (.inl ⟨sel, rfl, by simpa using h.symm⟩)))))
  | tblrd idx => exact .inr (.inr (.inr (.inr (.inr (.inr (.inl ⟨idx, rfl, by simpa using h.symm⟩))))))
  | illegalIngwN9 cmd | illegalIngwN10to11 cmd | illegalIngwN12to15 cmd | reservedOp6to7 cmd | reservedOp8toF cmd =>
    rw [exec_illegalWord s rfl] at h
    exact .inr (.inr (.inr (.inr (.inr (.inr (.inr ⟨rfl, by simpa using h.symm⟩))))))

/-- A command completes whatever its operands (R140, R175). -/
theorem exec_completes (i : Instr) (s : State) : ∃ t, exec i s = .next t := by
  cases i with
  | ingw n data => simp only [exec, execIngw, ingwOf]; split <;> exact ⟨_, rfl⟩
  | _ => exact ⟨_, rfl⟩

/-- No command sees or changes what lies outside the block. -/
theorem exec_pending (i : Instr) (s : State) (es : List PortEvent) :
    exec i { s with pending := es } =
      match exec i s with
      | .next t => .next { t with pending := es }
      | .fault f => .fault f
      | .refused r => .refused r := by
  cases i with
  | ingw n data => simp only [exec, execIngw, ingwOf]; split <;> rfl
  | _ => simp [exec, execNop, execClear, execIngb, execFin, execTblrd, execIllegalIngwN9, execIllegalIngwN10to11,
      execIllegalIngwN12to15, execReservedOp6to7, execReservedOp8toF, clearOf, ingbOf, finOf, tblrdOf, State.setAcc, State.writeOut,
      State.raiseIllegalCommand]

theorem exec_outside {i : Instr} {s t : State} (h : exec i s = .next t) :
    t.pending = s.pending ∧ t.readLog = s.readLog := by
  rcases exec_cases h with ⟨_, rfl⟩ | ⟨_, rfl⟩ | ⟨_, _, rfl⟩ | ⟨_, _, _, _, rfl⟩ | ⟨_, _, _, _, rfl⟩ | ⟨_, _, rfl⟩ |
    ⟨_, _, rfl⟩ | ⟨_, rfl⟩ <;> simp

end Sys2Proof.Machine
end

