-- ==== Sys2Proof/Laws/Finalize.lean ====
section
/-! SUPPORT. The lengths of the encodings. -/

namespace Sys2Proof.Machine

@[simp] theorem encBuffer_length (c : Config) (acc : Word) : (encBuffer c acc).length = 8 := by simp [encBuffer]

@[simp] theorem base64Group_length (p0 p1 p2 : Byte) : (base64Group p0 p1 p2).length = 4 := rfl

@[simp] theorem encBase64_length (acc : Word) : (encBase64 acc).length = 12 := by simp [encBase64]

theorem hexWidth_pos (acc : Word) : 1 ≤ hexWidth acc := Nat.le_add_left 1 _

/-- `hexWidth` digits are enough. -/
theorem lt_pow_hexWidth (acc : Word) : acc.toNat < 16 ^ hexWidth acc := by
  have h : acc.toNat < 2 ^ (acc.toNat.log2 + 1) := Nat.lt_log2_self
  have e : (16 : Nat) ^ hexWidth acc = 2 ^ (4 * hexWidth acc) := by rw [Nat.pow_mul]
  rw [e]
  exact h.trans_le (Nat.pow_le_pow_right (by decide) (by unfold hexWidth; omega))

theorem hexWidth_le (acc : Word) : hexWidth acc ≤ 16 := by
  have h : acc.toNat.log2 < 64 := by
    by_cases h0 : acc.toNat = 0
    · simp [h0]
    · exact (Nat.log2_lt h0).2 acc.isLt
  unfold hexWidth
  omega

theorem encHex_length (c : Config) (acc : Word) :
    (encHex c acc).length = if c.hexPad then 16 else hexWidth acc := by
  simp [encHex]

theorem encHex_length_le (c : Config) (acc : Word) : (encHex c acc).length ≤ 16 := by
  have := hexWidth_le acc
  rw [encHex_length]
  split <;> omega

theorem finalize_length_le (c : Config) (sel : Nibble) (acc : Word) : (finalize c sel acc).length ≤ 16 := by
  have := encHex_length_le c acc
  unfold finalize
  split
  · assumption
  · split <;> simp

end Sys2Proof.Machine
end

