-- ==== Sys2Proof/Laws/Ingest.lean ====
section
/-! SUPPORT. The transform and the byte step, rewritten to plain bit-vector operations. -/

namespace Sys2Proof.Machine

theorem flipWord_hw (v : Word) : flipWord hw v = ~~~v := by
  have h : hw.flipMask = BitVec.allOnes 64 := by decide
  rw [flipWord, h, BitVec.xor_allOnes]

@[simp] theorem flipWord_flipWord (c : Config) (v : Word) : flipWord c (flipWord c v) = v := by
  simp [flipWord]

/-- The working form at the end of an ingest, from the stored result. -/
theorem flipWord_ingest (c : Config) (acc : Word) (bytes : List Byte) :
    flipWord c (ingest c acc bytes) = bytes.foldl (byteStep c) (flipWord c acc) := by
  simp [ingest]

theorem ingest_singleton (c : Config) (acc : Word) (b : Byte) : ingest c acc [b] = storedUpdate c acc b := rfl

end Sys2Proof.Machine
end

