-- ==== Sys2Proof/Laws/Step.lean ====
section
/-! SUPPORT. What a step and a sequence of inputs can do, said once. -/

namespace Sys2Proof.Machine

theorem step_cons (s : State) (e : PortEvent) (rest : List PortEvent) :
    step { s with pending := e :: rest } = present e { s with pending := rest } := rfl

@[simp] theorem present_command (cmd : CmdWord) (data : Word) (s : State) :
    present (.command cmd data) s = exec (decode cmd data) s := rfl
@[simp] theorem present_read (addr : Byte) (s : State) : present (.read addr) s = .next (s.answerRead addr) := rfl
@[simp] theorem present_reset (s : State) : present .reset s = .next s.resetBlock := rfl
@[simp] theorem present_powerCycle (s : State) : present .powerCycle s = .next s.resetBlock := rfl

/-- The whole of what a step can do: idle, or take the oldest input, whose effect is one of four. -/
theorem step_cases {s t : State} (h : step s = .next t) :
    (s.pending = [] ∧ t = s) ∨
    (∃ cmd data rest, s.pending = .command cmd data :: rest ∧ exec (decode cmd data) { s with pending := rest } = .next t) ∨
    (∃ addr rest, s.pending = .read addr :: rest ∧ t = { s with pending := rest }.answerRead addr) ∨
    (∃ rest, (s.pending = .reset :: rest ∨ s.pending = .powerCycle :: rest) ∧ t = { s with pending := rest }.resetBlock) := by
  unfold step at h
  split at h
  case h_1 hp => exact .inl ⟨hp, by simpa using h.symm⟩
  case h_2 e rest hp =>
    cases e with
    | command cmd data => exact .inr (.inl ⟨cmd, data, rest, hp, h⟩)
    | read addr => exact .inr (.inr (.inl ⟨addr, rest, hp, by simpa using h.symm⟩))
    | reset => exact .inr (.inr (.inr ⟨rest, .inl hp, by simpa using h.symm⟩))
    | powerCycle => exact .inr (.inr (.inr ⟨rest, .inr hp, by simpa using h.symm⟩))

/-- Every input completes. -/
theorem present_completes (e : PortEvent) (s : State) : ∃ t, present e s = .next t := by
  cases e with
  | command cmd data => exact exec_completes _ _
  | _ => exact ⟨_, rfl⟩

/-- An input leaves what is still to be presented alone. -/
theorem present_pending {e : PortEvent} {s t : State} (h : present e s = .next t) : t.pending = s.pending := by
  cases e with
  | command cmd data => exact (exec_outside h).1
  | read addr => cases h; rfl
  | reset => cases h; rfl
  | powerCycle => cases h; rfl

@[simp] theorem runPort_nil (s : State) : runPort [] s = .next { s with pending := [] } := rfl

/-- Running a sequence is the effect of its first input, then the rest. -/
theorem runPort_cons (e : PortEvent) (es : List PortEvent) (s : State) :
    runPort (e :: es) s =
      match present e { s with pending := es } with
      | .next t => runPort es t
      | .fault f => .fault f
      | .refused r => .refused r := by
  obtain ⟨t, ht⟩ := present_completes e { s with pending := es }
  have hp : t.pending = es := present_pending ht
  have ht' : { t with pending := es } = t := by cases t; cases hp; rfl
  simp only [runPort, List.length_cons, runSteps, step_cons, ht]
  rw [ht']

theorem runPort_completes (es : List PortEvent) (s : State) : ∃ t, runPort es s = .next t := by
  induction es generalizing s with
  | nil => exact ⟨_, rfl⟩
  | cons e es ih =>
    obtain ⟨t, ht⟩ := present_completes e { s with pending := es }
    obtain ⟨u, hu⟩ := ih t
    exact ⟨u, by rw [runPort_cons, ht]; exact hu⟩

end Sys2Proof.Machine
end

