-- ==== Sys2Proof/Laws/Parametric.lean ====
section
/-! SUPPORT. The machine of a configuration: at `hw` it is this hardware, and the types store what R12's sizes say. -/

namespace Sys2Proof.Machine

@[simp] theorem decodeOf_hw (cmd : CmdWord) (data : Word) : decodeOf hw cmd data = decode cmd data := rfl

@[simp] theorem hostReadOf_hw (s : State) (addr : Byte) : hostReadOf hw s addr = hostRead s addr := rfl

@[simp] theorem resetOf_hw : State.resetOf hw = State.reset := rfl

@[simp] theorem execOf_hw (i : Instr) (s : State) : execOf hw i s = exec i s := by cases i <;> rfl

@[simp] theorem presentOf_hw (e : PortEvent) (s : State) : presentOf hw e s = present e s := by
  cases e with
  | command cmd data => exact execOf_hw _ s
  | _ => rfl

@[simp] theorem stepOf_hw (s : State) : stepOf hw s = step s := by
  cases h : s.pending with
  | nil => simp only [stepOf, step, h]
  | cons e rest => simp only [stepOf, step, h, presentOf_hw]

/-- The storage types have the sizes of the configuration. -/
theorem storage_types (c : Config) :
    Word = BitVec c.accWidth ∧ Word = BitVec c.tableWidth ∧ Word = BitVec c.dataWidth ∧ CmdWord = BitVec c.cmdWidth ∧
    Vector Byte 16 = Vector Byte c.outBytes := by simp

end Sys2Proof.Machine
end

