-- ==== Sys2Proof/Laws/PerInstr.lean ====
section
/-! SUPPORT. Facts about every command as syntax, one lemma per constructor. -/

namespace Sys2Proof.Laws.EncodesInRow

/-- The `mask` of a command's row in spec/opcode_table.json. -/
def rowMask : Instr → CmdWord
  | .nop => 0xF000
  | .clear => 0xF000
  | .ingb _ => 0xF000
  | .ingw _ _ => 0xF000
  | .fin _ => 0xF000
  | .tblrd _ => 0xF000
  | .illegalIngwN9 _ => 0xFF00
  | .illegalIngwN10to11 _ => 0xFE00
  | .illegalIngwN12to15 _ => 0xFC00
  | .reservedOp6to7 _ => 0xE000
  | .reservedOp8toF _ => 0x8000

/-- The `match` of a command's row in spec/opcode_table.json. -/
def rowMatch : Instr → CmdWord
  | .nop => 0x0000
  | .clear => 0x1000
  | .ingb _ => 0x2000
  | .ingw _ _ => 0x3000
  | .fin _ => 0x4000
  | .tblrd _ => 0x5000
  | .illegalIngwN9 _ => 0x3900
  | .illegalIngwN10to11 _ => 0x3A00
  | .illegalIngwN12to15 _ => 0x3C00
  | .reservedOp6to7 _ => 0x6000
  | .reservedOp8toF _ => 0x8000

/-- The word of a well-formed command lies in its row of the opcode table (R64). -/
def Statement (i : Instr) : Prop := i.wf = true → (encode i).1 &&& rowMask i = rowMatch i

theorem nop : Statement .nop := fun _ => rfl
theorem clear : Statement .clear := fun _ => rfl

theorem ingb (byte : Byte) : Statement (.ingb byte) := by
  intro _
  revert byte
  decide

theorem ingw (n : Nibble) (data : Word) : Statement (.ingw n data) := by
  have h : ∀ n : Nibble, (0x3000 ||| n.setWidth 16 <<< 8) &&& 0xF000 = (0x3000 : CmdWord) := by decide
  exact fun _ => h n

theorem fin (sel : Nibble) : Statement (.fin sel) := by
  intro _
  revert sel
  decide

theorem tblrd (idx : Byte) : Statement (.tblrd idx) := by
  intro _
  revert idx
  decide

theorem illegalIngwN9 (cmd : CmdWord) : Statement (.illegalIngwN9 cmd) := by
  simp [Statement, Instr.wf, encode, rowMask, rowMatch]

theorem illegalIngwN10to11 (cmd : CmdWord) : Statement (.illegalIngwN10to11 cmd) := by
  simp [Statement, Instr.wf, encode, rowMask, rowMatch]

theorem illegalIngwN12to15 (cmd : CmdWord) : Statement (.illegalIngwN12to15 cmd) := by
  simp [Statement, Instr.wf, encode, rowMask, rowMatch]

theorem reservedOp6to7 (cmd : CmdWord) : Statement (.reservedOp6to7 cmd) := by
  simp [Statement, Instr.wf, encode, rowMask, rowMatch]

theorem reservedOp8toF (cmd : CmdWord) : Statement (.reservedOp8toF cmd) := by
  simp [Statement, Instr.wf, encode, rowMask, rowMatch]

end Sys2Proof.Laws.EncodesInRow
end

