-- ==== Sys2Proof/Tests/Slice0.lean ====
section
/-! SUPPORT. Small tests, each about one word, one step or one lookup, with expected values from spec/30_encoding.md rule R71 and spec/95_test_vectors.md; and for every statement that has hypotheses a witness that meets them. -/

namespace Sys2Proof.Tests

open Sys2Proof.Machine

/-- The next state, where there is one. -/
def nextOf : Result → Option State
  | .next t => some t
  | .fault _ => none
  | .refused _ => none

/-- A state after reset but for `ACC`. -/
def withAcc (v : Word) : State := State.reset.setAcc v

/-! ## WellFormed: each check refuses an ill-formed term -/

theorem test_wf_ingw : (Instr.ingw 8 0).wf = true ∧ (Instr.ingw 9 0).wf = false := by decide
theorem test_wf_illegalIngwN9 : (Instr.illegalIngwN9 0x39FF).wf = true ∧ (Instr.illegalIngwN9 0x3800).wf = false := by decide
theorem test_wf_illegalIngwN10to11 :
    (Instr.illegalIngwN10to11 0x3B00).wf = true ∧ (Instr.illegalIngwN10to11 0x3900).wf = false := by decide
theorem test_wf_illegalIngwN12to15 :
    (Instr.illegalIngwN12to15 0x3F00).wf = true ∧ (Instr.illegalIngwN12to15 0x3B00).wf = false := by decide
theorem test_wf_reservedOp6to7 : (Instr.reservedOp6to7 0x7FFF).wf = true ∧ (Instr.reservedOp6to7 0x8000).wf = false := by decide
theorem test_wf_reservedOp8toF : (Instr.reservedOp8toF 0x8000).wf = true ∧ (Instr.reservedOp8toF 0x7FFF).wf = false := by decide

/-! ## Decoding: words written bit by bit from R61, R64 and R71 (`OP`, `A`, `B`) -/

theorem test_decode_nop_junk : decode 0b0000101010111100 0xFFFFFFFFFFFFFFFF = .nop := by decide
theorem test_decode_clear : decode 0b0001000000000000 0 = .clear := by decide
theorem test_decode_ingb : decode 0b0010000001100001 0 = .ingb 0x61 := by decide
theorem test_decode_ingb_ignores_A : decode 0b0010111110000000 7 = .ingb 0x80 := by decide
theorem test_decode_ingw : decode 0b0011100000000000 0x3837363534333231 = .ingw 8 0x3837363534333231 := by decide
theorem test_decode_ingw_zero : decode 0b0011000011111111 1 = .ingw 0 1 := by decide
theorem test_decode_fin : decode 0b0100001000000000 0 = .fin 2 ∧ decode 0b0100111100000000 0 = .fin 15 := by decide
theorem test_decode_tblrd : decode 0b0101000010000000 0 = .tblrd 0x80 := by decide
theorem test_decode_ingw_n9 : decode 0b0011100100000000 0 = .illegalIngwN9 0x3900 := by decide
theorem test_decode_ingw_n10_n11 :
    decode 0b0011101000000000 0 = .illegalIngwN10to11 0x3A00 ∧ decode 0b0011101111111111 0 = .illegalIngwN10to11 0x3BFF := by
  decide
theorem test_decode_ingw_n12_n15 :
    decode 0b0011110000000000 0 = .illegalIngwN12to15 0x3C00 ∧ decode 0b0011111111111111 0 = .illegalIngwN12to15 0x3FFF := by
  decide
theorem test_decode_op6_op7 :
    decode 0b0110000000000000 0 = .reservedOp6to7 0x6000 ∧ decode 0b0111111111111111 0 = .reservedOp6to7 0x7FFF := by decide
theorem test_decode_op8_opF :
    decode 0b1000000000000000 0 = .reservedOp8toF 0x8000 ∧ decode 0b1111000100100011 0 = .reservedOp8toF 0xF123 := by decide

/-- The number of a command: `CMD` in bits 15..0, `DATA` in bits 79..16. -/
theorem test_table_word : decodeTableWord 16 0x2061 = some (.ingb 0x61) ∧
    decodeTableWord 80 0x00000000006362613300 = some (.ingw 3 0x636261) ∧ decodeTableWord 96 0 = none := by decide

theorem test_encode_fin : encode (.fin 2) = (0x4200, 0) := by decide

/-! ## Commands (spec/95_test_vectors.md) -/

/-- V-CTL-1. -/
theorem test_nop : nextOf (exec .nop (withAcc 0x05E5CABB3FC1FAEB)) = some (withAcc 0x05E5CABB3FC1FAEB) := by decide

/-- V-CTL-3: CLEAR keeps `OUT_LEN` and `STATUS.ILL`. -/
theorem test_clear_keeps_output :
    nextOf (exec .clear { withAcc 0xAE8B14860A799888 with outLen := 16, ill := true }) =
      some { State.reset with outLen := 16, ill := true } := by decide

/-- V-ING-1. -/
theorem test_ingb : nextOf (exec (.ingb 0x61) State.reset) = some (withAcc 0x8C2F8445B4CBFC3C) := by decide

/-- V-ING-8. -/
theorem test_ingb_index_zero : nextOf (exec (.ingb 0x10) (withAcc 0x0123456789ABCDEF)) = some (withAcc 0xFF0123456789ABCD) := by
  decide

/-- V-ING-12: lanes 3..7 ignored. -/
theorem test_ingw_ignores_lanes :
    nextOf (exec (.ingw 3 0xFFFFFFFFFF636261) State.reset) = some (withAcc 0x05E5CABB3FC1FAEB) := by decide

/-- V-ING-10, first command. -/
theorem test_ingw_eight : nextOf (exec (.ingw 8 0x3837363534333231) State.reset) = some (withAcc 0xECD09098C2C89494) := by decide

/-- V-FIN-8: a 15-digit hex digest and a zero after it. -/
theorem test_fin_hex :
    nextOf (exec (.fin 1) (withAcc 0x05E5CABB3FC1FAEB)) =
      some { withAcc 0x05E5CABB3FC1FAEB with
        out := #v[0x35, 0x45, 0x35, 0x43, 0x41, 0x42, 0x42, 0x33, 0x46, 0x43, 0x31, 0x46, 0x41, 0x45, 0x42, 0x00],
        outLen := 15 } := by decide

/-- V-FIN-7: base64. -/
theorem test_fin_base64 :
    nextOf (exec (.fin 2) (withAcc 0xAE8B14860A799888)) =
      some { withAcc 0xAE8B14860A799888 with
        out := #v[0x69, 0x4A, 0x68, 0x35, 0x43, 0x6F, 0x59, 0x55, 0x69, 0x36, 0x34, 0x3D, 0x00, 0x00, 0x00, 0x00],
        outLen := 12 } := by decide

/-- V-TBL-5. -/
theorem test_tblrd :
    nextOf (exec (.tblrd 0x80) State.reset) =
      some { State.reset with
        out := #v[0xB5, 0xC9, 0x4B, 0xAC, 0x29, 0x93, 0x6C, 0x9A, 0x00, 0x00, 0x00, 0x00, 0x00, 0x00, 0x00, 0x00],
        outLen := 8 } := by decide

/-- V-ING-18: `N` = 9 changes `STATUS.ILL` alone. -/
theorem test_illegal_ingw :
    nextOf (exec (.illegalIngwN9 0x3900) (withAcc 5)) = some { withAcc 5 with ill := true } ∧
    nextOf (exec (.illegalIngwN10to11 0x3A00) (withAcc 5)) = some { withAcc 5 with ill := true } ∧
    nextOf (exec (.illegalIngwN12to15 0x3F00) (withAcc 5)) = some { withAcc 5 with ill := true } := by decide

/-- V-CTL-4 and V-CTL-5. -/
theorem test_reserved :
    nextOf (exec (.reservedOp6to7 0x6000) (withAcc 5)) = some { withAcc 5 with ill := true } ∧
    nextOf (exec (.reservedOp8toF 0xF123) { withAcc 5 with ill := true }) = some { withAcc 5 with ill := true } := by decide

/-! ## Ports -/

/-- The command at the port is the next one to run, and a table row's word is it. -/
theorem test_step_runs_fetch_word :
    nextOf (step (State.reset.withFetchWord 16 0x2061)) = some (withAcc 0x8C2F8445B4CBFC3C) := by decide

/-- V-CTL-7 and the edges of the host read map (R45). -/
theorem test_host_read_map :
    let s := { State.reset with out := Vector.replicate 16 0xAA, outLen := 1, ill := true }
    (hostRead s 0x00, hostRead s 0x0F, hostRead s 0x10, hostRead s 0x11, hostRead s 0x12, hostRead s 0xFF) =
      (0xAA, 0xAA, 0x01, 0x01, 0x00, 0x00) := by decide

/-- V-CTL-6. -/
theorem test_reset_step :
    nextOf (step { withAcc 7 with outLen := 9, ill := true, pending := [.reset] }) = some State.reset := by decide

/-- V-FIN-3: the padded hex of zero. -/
theorem test_hex_padded : encHex { hw with hexPad := true } 0 = List.replicate 16 0x30 := by decide

/-- The catalogued check value of `"123456789"` (R102). -/
theorem test_catalogue_check_value :
    catalogueCrc [0x31, 0x32, 0x33, 0x34, 0x35, 0x36, 0x37, 0x38, 0x39] = 0xAE8B14860A799888 := by decide +kernel

/-! ## The assembler (R69, R70) -/

theorem test_asm_ingw : assembleLine "ingw 3, 0x0000000000636261 ; abc".toList = some [(0x3300, 0x636261)] := by decide
theorem test_asm_quoted_char : assembleLine "INGB 'a'".toList = some [(0x2061, 0)] := by decide
theorem test_asm_ing_text :
    assembleLine "ING \"123456789\"".toList = some [(0x3800, 0x3837363534333231), (0x3100, 0x39)] := by decide
/-- A quoted apostrophe, a quoted `;` and a quoted `,` before a comment and between commas (notes/assumptions/10.md). -/
theorem test_asm_quoting :
    assembleLine "INGB ''' ; x".toList = some [(0x2027, 0)] ∧
    assembleLine "ING ''',',', ';' ; x".toList = some [(0x3300, 0x3B2C27)] := by decide
theorem test_asm_out_of_range :
    assembleLine "INGW 9, 0".toList = none ∧ assembleLine "FIN 16".toList = none ∧ assembleLine "TBLRD 256".toList = none := by
  decide
theorem test_asm_fin_names :
    assembleLine "FIN".toList = some [(0x4000, 0)] ∧ assembleLine "fin base64".toList = some [(0x4200, 0)] := by decide

/-! ## Witnesses: a concrete state and operands for the hypotheses of each statement -/

theorem witness_DecodeFollowsRuleR65 :
    (0x0FFF : CmdWord).extractLsb' 12 4 = 0x0 ∧ (0x1000 : CmdWord).extractLsb' 12 4 = 0x1 ∧
    (0x20FF : CmdWord).extractLsb' 12 4 = 0x2 ∧
    ((0x3800 : CmdWord).extractLsb' 12 4 = 0x3 ∧ ((0x3800 : CmdWord).extractLsb' 8 4).toNat ≤ 8) ∧
    ((0x3900 : CmdWord).extractLsb' 12 4 = 0x3 ∧ 8 < ((0x3900 : CmdWord).extractLsb' 8 4).toNat) ∧
    (0x4F00 : CmdWord).extractLsb' 12 4 = 0x4 ∧ (0x50FF : CmdWord).extractLsb' 12 4 = 0x5 ∧
    6 ≤ ((0x6000 : CmdWord).extractLsb' 12 4).toNat := by decide

theorem witness_IllegalEncodingsOfRuleR66 :
    (0x39FF : CmdWord) &&& 0xFF00 = 0x3900 ∧ (0x3BFF : CmdWord) &&& 0xFE00 = 0x3A00 ∧ (0x3FFF : CmdWord) &&& 0xFC00 = 0x3C00 ∧
    (0x7FFF : CmdWord) &&& 0xE000 = 0x6000 ∧ (0x8000 : CmdWord) &&& 0x8000 = 0x8000 ∧
    (decode 0x3900 0).illegalWord.isSome := by decide

theorem witness_UnreadBitsHaveNoEffect :
    (0x0FFF : CmdWord).extractLsb' 12 4 = (0x0000 : CmdWord).extractLsb' 12 4 ∧
    ((0x2F61 : CmdWord).extractLsb' 12 4 = 0x2 ∧ (0x2F61 : CmdWord).extractLsb' 0 8 = (0x2061 : CmdWord).extractLsb' 0 8) ∧
    ((0x42FF : CmdWord).extractLsb' 12 4 = 0x4 ∧ (0x42FF : CmdWord).extractLsb' 8 4 = (0x4200 : CmdWord).extractLsb' 8 4) ∧
    ((0x33FF : CmdWord).extractLsb' 8 4 = (0x3300 : CmdWord).extractLsb' 8 4 ∧
      ∀ k < ((0x33FF : CmdWord).extractLsb' 8 4).toNat,
        (0xFFFFFFFFFF636261 : Word).extractLsb' (8 * k) 8 = (0x636261 : Word).extractLsb' (8 * k) 8) ∧
    assemble (.ingb 0x61) = some [(0x2061, 0)] := by decide

theorem witness_DecodeOfEncodeIsIdentity : (Instr.ingw 8 0x3837363534333231).wf = true := by decide

theorem witness_AssemblerRejectsRangesAndEmitsNoIllegalCommand : assemble (.ingw 8 1) = some [(0x3800, 1)] ∧
    assemble (.ing [255, 1]) = some [(0x3200, 0x1FF)] ∧ assemble (.ing [1, 256]) = none := by decide

theorem witness_IngExpansionIngestsItsBytes :
    (ingExpansion [1, 2, 3, 4, 5, 6, 7, 8, 9])[1]? = some (0x3100, 9) := by decide

theorem witness_RomIsLinear : 1 ≤ 7 ∧ 7 ≤ 7 := by decide

theorem witness_TblrdReadsOneEntry : (0x5FFF : CmdWord) &&& 0xF000 = 0x5000 := by decide

theorem witness_IngestRunsThroughWorkingForms : 0 < [(0x61 : Byte)].length ∧ (8 : Nibble).toNat ≤ 8 := by decide

theorem witness_IngbUpdatesAccumulator : (0x2F61 : CmdWord) &&& 0xF000 = 0x2000 := by decide

theorem witness_IngwFoldsItsLanes :
    ((0x3800 : CmdWord) &&& 0xF000 = 0x3000 ∧ ((0x3800 : CmdWord).extractLsb' 8 4).toNat ≤ 8) ∧ (8 : Nibble).toNat ≤ 8 ∧
    (∀ k < (3 : Nibble).toNat, (0xFFFFFFFFFF636261 : Word).extractLsb' (8 * k) 8 = (0x636261 : Word).extractLsb' (8 * k) 8) ∧
    8 < (9 : Nibble).toNat := by decide

theorem witness_AnyCommandSplitComputesTheStreamCrc :
    [PortEvent.command 0x3200 0x6261, .read 0x10, .command 0x2063 0, .command 0x4100 0, .command 0x6000 0].all keepsStream =
      true := by decide

theorem witness_InterleavedHostsComputeTheInterleavedStream :
    Interleaves [PortEvent.command 0x2061 0] [.command 0x3200 0x6362] [.command 0x3200 0x6362, .command 0x2061 0] ∧
    [PortEvent.command 0x2061 0].all keepsStream = true ∧ [PortEvent.command 0x3200 0x6362].all keepsStream = true :=
  ⟨.right _ (.left _ .nil), by decide, by decide⟩

theorem witness_SingleBitFlipChangesTheResult : 0 < 8 ∧ 7 < 8 := by decide

theorem witness_IngestIsInjectiveInTheAccumulator : ingest hw 5 [0x61] = ingest hw 5 [0x61] := rfl

theorem witness_FinWritesTheSelectedDigest :
    (0x4FFF : CmdWord) &&& 0xF000 = 0x4000 ∧ 7 < (encBuffer hw 0).length := by decide

theorem witness_UnrecognisedSelectorFallsBackToBuffer : 3 ≤ (3 : Nibble).toNat ∧ 3 ≤ (15 : Nibble).toNat := by decide

theorem witness_BufferIsLittleEndianBijection : [(1 : Byte), 2, 3, 4, 5, 6, 7, 8].length = 8 := rfl

theorem witness_HexIsTheNumericValueUpperCase :
    hw.hexPad = false ∧ { hw with hexPad := true }.hexPad = true ∧ (0 : Word) = 0 ∧ (0x10 : Word) ≠ 0 ∧
    0 < (encHex hw 0x10).length := by decide

theorem witness_Base64DecodesToBuffer : encBase64 1 = encBase64 1 := rfl

theorem witness_EmptyInputHasTheIdentityDigest : State.reset.acc = 0 := by decide

/-- Two FINs with the same selector and a host read, a TBLRD and an illegal command between them. -/
theorem witness_FinalizeIsReadOnlyAndIdempotent :
    (∀ e ∈ [PortEvent.read 0x10, .command 0x5080 0, .command 0x3900 0], isReset e = false ∧
      ∀ cmd data, e = .command cmd data →
        decode cmd data ≠ .clear ∧ (∀ b, decode cmd data ≠ .ingb b) ∧ ∀ n d, decode cmd data ≠ .ingw n d) ∧
    ∃ t u : State, runPort [.command 0x4100 0] State.reset = .next t ∧
      runPort ([.read 0x10, .command 0x5080 0, .command 0x3900 0] ++ [.command 0x4100 0]) t = .next u := by
  refine ⟨?_, ?_⟩
  · intro e he
    simp only [List.mem_cons, List.not_mem_nil, or_false] at he
    rcases he with rfl | rfl | rfl
    · exact ⟨rfl, fun _ _ h => by cases h⟩
    · refine ⟨rfl, fun cmd data h => ?_⟩
      cases h
      rw [show decode 0x5080 0 = .tblrd 0x80 from by decide]
      exact ⟨by decide, by simp, by simp⟩
    · refine ⟨rfl, fun cmd data h => ?_⟩
      cases h
      rw [show decode 0x3900 0 = .illegalIngwN9 0x3900 from by decide]
      exact ⟨by decide, by simp, by simp⟩
  · obtain ⟨t, ht⟩ := runPort_completes [.command 0x4100 0] State.reset
    obtain ⟨u, hu⟩ := runPort_completes ([.read 0x10, .command 0x5080 0, .command 0x3900 0] ++ [.command 0x4100 0]) t
    exact ⟨t, u, ht, hu⟩

theorem witness_NopChangesNothing : (0x0FFF : CmdWord) &&& 0xF000 = 0x0000 := by decide

theorem witness_ClearZeroesOnlyTheAccumulator :
    (0x1FFF : CmdWord) &&& 0xF000 = 0x1000 ∧ (Instr.ingw 8 0).wf = true ∧ Instr.ingw 8 0 ≠ .clear := by decide

theorem witness_ReservedOpcodesSetIllOnly :
    6 ≤ ((0x6000 : CmdWord).extractLsb' 12 4).toNat ∧ 6 ≤ ((0xFFFF : CmdWord).extractLsb' 12 4).toNat := by decide

/-- An illegal command at the port, a legal command, and the reset that clears the sticky bit. -/
theorem witness_IllegalCommandSetsTheStickyBit :
    (decode 0x3900 0).illegalWord = some 0x3900 ∧
    { State.reset with pending := [.command 0x3900 0] }.pending = PortEvent.command 0x3900 0 :: [] ∧
    (decode 0x2061 0).illegalWord = none ∧ (nextOf (exec (decode 0x2061 0) State.reset)).isSome ∧
    { State.reset with ill := true, pending := [.reset] }.ill = true ∧
    (nextOf (step { State.reset with ill := true, pending := [.reset] })).map State.ill = some false := by decide

theorem witness_StatusReportsIllegalCommandsSinceReset :
    [PortEvent.command 0x6000 0, .read 0x11, .command 0x1000 0].all (fun e => !isReset e) = true := by decide

theorem witness_ResetGivesEveryFieldItsValue :
    { State.reset with pending := [.reset] }.pending = PortEvent.reset :: [] := rfl

theorem witness_ResetAndClearDifferOnlyInOutputAndIll : (0x1000 : CmdWord) &&& 0xF000 = 0x1000 := by decide

/-- An address in each clause of the read map, at its edges, and a read at the port. -/
theorem witness_HostReadMapAndNoSideEffect :
    (0x00 : Byte).toNat < 16 ∧ (0x0F : Byte).toNat < 16 ∧ ¬ (0x10 : Byte).toNat < 16 ∧ ¬ 0x12 ≤ (0x11 : Byte).toNat ∧
    0x12 ≤ (0x12 : Byte).toNat ∧ 0x12 ≤ (0xFF : Byte).toNat ∧
    { State.reset with pending := [.read 0x11] }.pending = PortEvent.read 0x11 :: [] ∧
    (nextOf (step { State.reset with pending := [.read 0x11] })).isSome := by decide

theorem witness_StepRunsTheDecodedCommand :
    (State.reset.withFetchWord 16 0x2061).pending = PortEvent.command 0x2061 0 :: [] := by decide

theorem witness_IdleBlockHoldsItsState : State.reset.pending = [] := rfl

theorem witness_OutputShapeIsKeptByEveryStep :
    State.reset.outputOk ∧ (nextOf (step (State.reset.withFetchWord 16 0x4100))).isSome := by
  refine ⟨⟨by decide, ?_⟩, by decide⟩
  decide

theorem witness_OnlyIngestClearAndResetWriteAcc :
    (nextOf (step (State.reset.withFetchWord 16 0x2061))).map State.acc ≠ some State.reset.acc := by decide

theorem witness_OnlyFinAndTblrdWriteOut :
    (nextOf (exec (.fin 0) State.reset)).isSome ∧ (nextOf (exec (.tblrd 0) State.reset)).isSome ∧
    [PortEvent.command 0x2061 0, .command 0x1000 0, .read 0x00].all (fun e => !writesOut e) = true := by decide

theorem witness_OutLenIsTheResultLength :
    ((3 : Nibble) ≠ 1 ∧ (3 : Nibble) ≠ 2) ∧ (nextOf (exec .nop State.reset)).isSome ∧
    ({ State.reset with outLen := 16 }.outLen.toNat ≤ 16 ∧ (nextOf (step { State.reset with outLen := 16 })).isSome) := by decide

theorem witness_IngestAndClearFrame :
    (8 : Nibble).toNat ≤ 8 ∧ (nextOf (exec (.ingw 8 0) State.reset)).isSome ∧ (nextOf (exec (.ingb 0) State.reset)).isSome ∧
    (nextOf (exec .clear State.reset)).isSome := by decide

theorem witness_FinAndTblrdFrame :
    (nextOf (exec (.fin 1) State.reset)).isSome ∧ (nextOf (exec (.tblrd 0xFF) State.reset)).isSome ∧
    0x11 ≤ (0x11 : Byte).toNat := by decide

theorem witness_NopAndIllegalFrame :
    (Instr.illegalIngwN9 0x3900).illegalWord.isSome ∧ 8 < (9 : Nibble).toNat ∧
    (nextOf (exec (.illegalIngwN9 0x3900) State.reset)).isSome ∧ (nextOf (exec (.ingw 9 0) State.reset)).isSome ∧
    (0x10 : Byte) ≠ 0x11 := by decide

theorem witness_AccumulatorIsVisibleOnlyThroughFin :
    [PortEvent.command 0x2061 0, .command 0x5080 0, .read 0x00].all (fun e => !isFin e) = true := by decide

theorem witness_OutputIsASnapshot :
    [PortEvent.command 0x2061 0, .command 0x6000 0].all (fun e => !writesOut e) = true ∧ (0x10 : Byte).toNat ≤ 0x10 := by decide

theorem witness_ChecksumProcedureReadsTheDigest :
    State.reset.safe ∧
    ∀ e ∈ [PortEvent.command 0x3200 0x6261, .command 0x2063 0], ∃ cmd data, e = .command cmd data ∧
      ((∃ b, decode cmd data = .ingb b) ∨ ∃ n d, decode cmd data = .ingw n d) := by
  refine ⟨rfl, fun e he => ?_⟩
  simp only [List.mem_cons, List.not_mem_nil, or_false] at he
  rcases he with rfl | rfl
  · exact ⟨_, _, rfl, .inr ⟨2, 0x6261, by decide⟩⟩
  · exact ⟨_, _, rfl, .inl ⟨0x63, by decide⟩⟩

theorem witness_ParametersDetermineTheBlock :
    (0xFF : Byte).toNat < hw.tableEntries ∧ (0x3900 : CmdWord).extractLsb' 12 4 = 0x3 := by decide

theorem witness_BlocksAreIndependent : [State.reset, withAcc 5][1]? = some (withAcc 5) := rfl

end Sys2Proof.Tests
end

section
/-! PROOFS. What each kind of input leaves of `ACC`, the output buffer and `STATUS.ILL`, and what a run leaves of them. -/

namespace Sys2Proof

/-- A decoded command that is legal comes from its own opcode, with the operands of R63. -/
theorem decode_legal_cases {cmd : CmdWord} {data : Word} {i : Instr} (h : decode cmd data = i)
    (hi : i.illegalWord = none) :
    (cmdOp cmd = 0#4 ∧ i = .nop) ∨ (cmdOp cmd = 1#4 ∧ i = .clear) ∨ (cmdOp cmd = 2#4 ∧ i = .ingb (cmdB cmd)) ∨
    (cmdOp cmd = 3#4 ∧ (cmdA cmd).toNat ≤ 8 ∧ i = .ingw (cmdA cmd) data) ∨
    (cmdOp cmd = 4#4 ∧ i = .fin (cmdA cmd)) ∨ (cmdOp cmd = 5#4 ∧ i = .tblrd (cmdB cmd)) := by
  subst h
  rcases decode_cases cmd data with h | h | h | h | ⟨_, _, hd⟩ | h | h | ⟨_, hd⟩
  · exact .inl h
  · exact .inr (.inl h)
  · exact .inr (.inr (.inl h))
  · exact .inr (.inr (.inr (.inl h)))
  · simp [hd, decodeIllegalIngw_illegalWord] at hi
  · exact .inr (.inr (.inr (.inr (.inl h))))
  · exact .inr (.inr (.inr (.inr (.inr h))))
  · simp [hd, decodeReserved_illegalWord] at hi

theorem decode_ingw_count_le {cmd : CmdWord} {data d : Word} {n : Nibble} (h : decode cmd data = .ingw n d) :
    n.toNat ≤ 8 := by
  obtain ⟨_, hn, rfl, _⟩ : cmdOp cmd = 3#4 ∧ (cmdA cmd).toNat ≤ 8 ∧ n = cmdA cmd ∧ d = data := by
    simpa using decode_legal_cases h rfl
  exact hn

theorem cmdOp_of_decode_fin {cmd : CmdWord} {data : Word} {sel : Nibble} (h : decode cmd data = .fin sel) :
    cmdOp cmd = 4#4 := by
  have hc : cmdOp cmd = 4#4 ∧ sel = cmdA cmd := by simpa using decode_legal_cases h rfl
  exact hc.1

theorem cmdOp_of_decode_tblrd {cmd : CmdWord} {data : Word} {idx : Byte} (h : decode cmd data = .tblrd idx) :
    cmdOp cmd = 5#4 := by
  have hc : cmdOp cmd = 5#4 ∧ idx = cmdB cmd := by simpa using decode_legal_cases h rfl
  exact hc.1

end Sys2Proof

namespace Sys2Proof.Machine

section
variable {i : Instr} {s t : State}

theorem exec_keeps_acc (h : exec i s = .next t) :
    (∃ b, i = .ingb b) ∨ (∃ n data, i = .ingw n data) ∨ i = .clear ∨ t.acc = s.acc := by
  rcases exec_cases h with ⟨_, rfl⟩ | ⟨hi, _⟩ | ⟨b, hi, _⟩ | ⟨n, data, hi, _⟩ | ⟨_, _, _, _, rfl⟩ | ⟨_, _, rfl⟩ |
    ⟨_, _, rfl⟩ | ⟨_, rfl⟩
  · exact .inr (.inr (.inr rfl))
  · exact .inr (.inr (.inl hi))
  · exact .inl ⟨b, hi⟩
  · exact .inr (.inl ⟨n, data, hi⟩)
  · exact .inr (.inr (.inr rfl))
  · exact .inr (.inr (.inr (writeOut_acc s _)))
  · exact .inr (.inr (.inr (writeOut_acc s _)))
  · exact .inr (.inr (.inr rfl))

theorem exec_keeps_output (h : exec i s = .next t) :
    (∃ sel, i = .fin sel) ∨ (∃ idx, i = .tblrd idx) ∨ (t.out = s.out ∧ t.outLen = s.outLen) := by
  rcases exec_cases h with ⟨_, rfl⟩ | ⟨_, rfl⟩ | ⟨_, _, rfl⟩ | ⟨_, _, _, _, rfl⟩ | ⟨_, _, _, _, rfl⟩ | ⟨sel, hi, _⟩ |
    ⟨idx, hi, _⟩ | ⟨_, rfl⟩
  · exact .inr (.inr ⟨rfl, rfl⟩)
  · exact .inr (.inr ⟨setAcc_out s _, setAcc_outLen s _⟩)
  · exact .inr (.inr ⟨setAcc_out s _, setAcc_outLen s _⟩)
  · exact .inr (.inr ⟨setAcc_out s _, setAcc_outLen s _⟩)
  · exact .inr (.inr ⟨rfl, rfl⟩)
  · exact .inl ⟨sel, hi⟩
  · exact .inr (.inl ⟨idx, hi⟩)
  · exact .inr (.inr ⟨rfl, rfl⟩)

/-- The count of a decoded INGW is legal, so there `ILL` is raised by the illegal rows alone (R66). -/
theorem exec_ill (hn : ∀ n data, i = .ingw n data → n.toNat ≤ 8) (h : exec i s = .next t) :
    t.ill = (s.ill || i.illegalWord.isSome) := by
  rcases exec_cases h with ⟨rfl, rfl⟩ | ⟨rfl, rfl⟩ | ⟨_, rfl, rfl⟩ | ⟨_, _, rfl, _, rfl⟩ | ⟨n, data, hi, hlt, _⟩ |
    ⟨_, rfl, rfl⟩ | ⟨_, rfl, rfl⟩ | ⟨hi, rfl⟩
  · simp [Instr.illegalWord]
  · simp [Instr.illegalWord]
  · simp [Instr.illegalWord]
  · simp [Instr.illegalWord]
  · exact absurd (hn n data hi) (by omega)
  · simp [Instr.illegalWord]
  · simp [Instr.illegalWord]
  · simp [hi]

end

section
variable (s : State) {bytes : List Byte}

/-- A result of at most 16 bytes fits the eight bits of `OUT_LEN`. -/
theorem writeOut_outLen_toNat (h : bytes.length ≤ 16) : (s.writeOut bytes).outLen.toNat = bytes.length := by
  rw [writeOut_outLen, BitVec.toNat_ofNat]
  omega

/-- R26: the result bytes, then zeros. -/
theorem writeOut_out_getElem (h : bytes.length ≤ 16) (k : Nat) (hk : k < 16) :
    (s.writeOut bytes).out[k] =
      if k < (s.writeOut bytes).outLen.toNat then bytes.getD k 0#8 else 0x00#8 := by
  rw [writeOut_outLen_toNat s h]
  split
  case isTrue => simp
  case isFalse hge => simp [List.getElem?_eq_none (Nat.le_of_not_lt hge)]

end

section
variable {e : PortEvent} {s t : State}

theorem present_ill (he : isReset e = false) (h : present e s = .next t) : t.ill = (s.ill || isIllegal e) := by
  cases e with
  | command cmd data => exact exec_ill (fun _ _ => decode_ingw_count_le) h
  | read addr => cases h; simp [isIllegal]
  | reset | powerCycle => cases he

theorem present_keeps_output (he : writesOut e = false) (h : present e s = .next t) :
    t.out = s.out ∧ t.outLen = s.outLen := by
  cases e with
  | command cmd data =>
    have hop : cmdOp cmd ≠ 4#4 ∧ cmdOp cmd ≠ 5#4 := by simpa [writesOut] using he
    rcases exec_keeps_output h with ⟨sel, hd⟩ | ⟨idx, hd⟩ | hkept
    · exact absurd (cmdOp_of_decode_fin hd) hop.1
    · exact absurd (cmdOp_of_decode_tblrd hd) hop.2
    · exact hkept
  | read addr => cases h; exact ⟨rfl, rfl⟩
  | reset | powerCycle => cases he

end

section
variable {α : Type} {obs : State → α} {es : List PortEvent}

/-- What one observes of the block after a run is the fold of what each input does to it. -/
theorem runPort_foldl {upd : α → PortEvent → α} (hobs : ∀ s rest, obs { s with pending := rest } = obs s)
    (hupd : ∀ e ∈ es, ∀ s t, present e s = .next t → obs t = upd (obs s) e) (s : State) :
    ∃ t, runPort es s = .next t ∧ obs t = es.foldl upd (obs s) := by
  induction es generalizing s with
  | nil => exact ⟨_, runPort_nil s, hobs s []⟩
  | cons e es ih =>
    obtain ⟨t, ht⟩ := present_completes e { s with pending := es }
    have hst : obs t = upd (obs s) e := by rw [hupd e (by simp) _ t ht, hobs]
    obtain ⟨u, hu, hobsu⟩ := ih (fun e' he' => hupd e' (by simp [he'])) t
    exact ⟨u, by rw [runPort_cons, ht]; exact hu, by rw [hobsu, hst, List.foldl_cons]⟩

/-- What every input of a run leaves unchanged, the run does. -/
theorem runPort_keeps (hobs : ∀ s rest, obs { s with pending := rest } = obs s)
    (hkeep : ∀ e ∈ es, ∀ s t, present e s = .next t → obs t = obs s) (s : State) :
    ∃ t, runPort es s = .next t ∧ obs t = obs s := by
  obtain ⟨t, ht, hobst⟩ := runPort_foldl (upd := fun a _ => a) hobs hkeep s
  exact ⟨t, ht, by rw [hobst, List.foldl_fixed]⟩

end

end Sys2Proof.Machine
end

section
/-! PROOFS. The statements about `STATUS`, `ACC`, `OUT` and `OUT_LEN` (spec/10_state.md rules R21, R26 to R28). -/

namespace Sys2Proof.Machine

/-! ## `STATUS` (R28) -/

/-- `STATUS` is a single bit followed by hardwired zeros (R28). -/
theorem status_getLsbD (s : State) (k : Nat) : s.status.getLsbD k = (decide (k = 0) && s.ill) := by
  cases k <;> simp [State.status]

theorem foldl_or_eq_or_any {α : Type} (p : α → Bool) (l : List α) (b : Bool) :
    l.foldl (fun b a => b || p a) b = (b || l.any p) := by
  induction l generalizing b with
  | nil => simp
  | cons a l ih => rw [List.foldl_cons, ih, List.any_cons, Bool.or_assoc]

/-- Over inputs without a reset, `ILL` gathers whether any of them was an illegal command. -/
theorem runPort_ill {es : List PortEvent} (hes : es.all (fun e => !isReset e) = true) (s : State) :
    ∃ t, runPort es s = .next t ∧ t.ill = (s.ill || es.any isIllegal) := by
  have hno : ∀ e ∈ es, isReset e = false := by simpa using hes
  rw [← foldl_or_eq_or_any]
  exact runPort_foldl (obs := State.ill) (fun _ _ => rfl) (fun e he _ _ h => present_ill (hno e he) h) s

/-- Settles O40: one input's effect on `ILL`, folded over the run. -/
theorem statusReportsIllegalCommandsSinceReset : Obligations.StatusReportsIllegalCommandsSinceReset := by
  refine ⟨fun s => ⟨status_getLsbD s 0, fun k hk => ?_⟩, reset_ill, resetBlock_ill, fun es s hes => runPort_ill hes s⟩
  have hk0 : k ≠ 0 := by omega
  simp [status_getLsbD, hk0]

/-! ## `ACC` (R21) -/

/-- Settles O50, by the four things a step can do. -/
theorem onlyIngestClearAndResetWriteAcc : Obligations.OnlyIngestClearAndResetWriteAcc := by
  refine ⟨reset_acc, fun s t hstep hne => ?_⟩
  rcases step_cases hstep with ⟨_, rfl⟩ | ⟨cmd, data, rest, hp, hexec⟩ | ⟨addr, rest, _, rfl⟩ | ⟨rest, hp, _⟩
  · exact absurd rfl hne
  · rcases exec_keeps_acc hexec with hi | hi | hi | hacc
    · exact .inl ⟨cmd, data, rest, hp, .inl hi⟩
    · exact .inl ⟨cmd, data, rest, hp, .inr (.inl hi)⟩
    · exact .inl ⟨cmd, data, rest, hp, .inr (.inr hi)⟩
    · exact absurd hacc hne
  · exact absurd rfl hne
  · exact .inr ⟨rest, hp⟩

/-! ## `OUT` (R26) -/

/-- Settles O51: what a result leaves in `OUT`, and that no other input touches it. -/
theorem onlyFinAndTblrdWriteOut : Obligations.OnlyFinAndTblrdWriteOut := by
  refine ⟨?_, fun i s t h => ?_, reset_out, fun es s hes => ?_⟩
  · rintro i s (⟨sel, rfl⟩ | ⟨idx, rfl⟩)
    · have hlen : (finalize hw sel s.acc).length ≤ 16 := finalize_length_le hw sel s.acc
      exact ⟨_, _, exec_fin s sel, (writeOut_outLen_toNat s hlen).symm, by rwa [writeOut_outLen_toNat s hlen],
        by rintro _ ⟨⟩; rfl, by simp, writeOut_out_getElem s hlen⟩
    · have hlen : (byteLanes 8 (romRead hw idx)).length ≤ 16 := by simp
      exact ⟨_, _, exec_tblrd s idx, (writeOut_outLen_toNat s hlen).symm, by rwa [writeOut_outLen_toNat s hlen],
        by simp, by rintro _ ⟨⟩; rfl, writeOut_out_getElem s hlen⟩
  · exact (exec_keeps_output h).imp_right (Or.imp_right And.left)
  · have hno : ∀ e ∈ es, writesOut e = false := by simpa using hes
    exact runPort_keeps (obs := State.out) (fun _ _ => rfl) (fun e he _ _ h => (present_keeps_output (hno e he) h).1) s

/-! ## `OUT_LEN` (R27) -/

theorem exec_outLen_le {i : Instr} {s t : State} (hs : s.outLen.toNat ≤ 16) (h : exec i s = .next t) :
    t.outLen.toNat ≤ 16 := by
  rcases exec_keeps_output h with ⟨sel, rfl⟩ | ⟨idx, rfl⟩ | ⟨_, hkept⟩
  · cases h
    have hlen := finalize_length_le hw sel s.acc
    rwa [writeOut_outLen_toNat s hlen]
  · cases h
    simp
  · rwa [hkept]

/-- No step leaves the range 0..16 of R27. -/
theorem step_outLen_le {s t : State} (hs : s.outLen.toNat ≤ 16) (h : step s = .next t) : t.outLen.toNat ≤ 16 := by
  rcases step_cases h with ⟨_, rfl⟩ | ⟨_, _, rest, _, hexec⟩ | ⟨_, _, _, rfl⟩ | ⟨_, _, rfl⟩
  · exact hs
  · exact exec_outLen_le (s := { s with pending := rest }) hs hexec
  · exact hs
  · simp

theorem finalize_hex (acc : Word) : finalize hw 1#4 acc = encHex hw acc := rfl

theorem finalize_base64 (acc : Word) : finalize hw 2#4 acc = encBase64 acc := rfl

/-- Every selector but those of hex and base64 gives the buffer digest (R116). -/
theorem finalize_buffer {sel : Nibble} (h1 : sel ≠ 1#4) (h2 : sel ≠ 2#4) (acc : Word) :
    finalize hw sel acc = encBuffer hw acc := by
  simp [finalize, h1, h2]

theorem encHex_length_pos (c : Config) (acc : Word) : 1 ≤ (encHex c acc).length := by
  have := hexWidth_pos acc
  rw [encHex_length]
  split <;> omega

/-- Settles O52, by the lengths of the encodings and by `step_outLen_le`. -/
theorem outLenIsTheResultLength : Obligations.OutLenIsTheResultLength := by
  refine ⟨reset_outLen, fun sel s => ⟨_, exec_fin s sel, fun h1 h2 => ?_, ?_, ?_⟩, fun idx s => ⟨_, exec_tblrd s idx, ?_⟩,
    fun i s t h => ?_, fun s t => step_outLen_le⟩
  · simp [finalize_buffer h1 h2]
  · rintro rfl
    simp [finalize_base64]
  · rintro rfl
    have hle := encHex_length_le hw s.acc
    rw [BitVec.ofNat_eq_ofNat, finalize_hex, writeOut_outLen_toNat s hle]
    exact ⟨encHex_length_pos hw s.acc, hle, rfl⟩
  · simp
  · exact (exec_keeps_output h).imp_right (Or.imp_right And.right)

end Sys2Proof.Machine
end

section
/-! PROOFS. The statements about the host reads (spec/20_memory.md rule R45). -/

namespace Sys2Proof.Machine

/-- A step takes the oldest input, wherever the state came from. -/
theorem step_of_pending {s : State} {e : PortEvent} {rest : List PortEvent} (hp : s.pending = e :: rest) :
    step s = present e { s with pending := rest } := by
  rw [← step_cons, ← hp]

/-- A read at the port leaves of the block what it found, and its answer with the host (R45). -/
theorem step_read {s : State} {addr : Byte} {rest : List PortEvent} (hp : s.pending = .read addr :: rest) :
    step s = .next ({ s with pending := rest }.answerRead addr) := by
  rw [step_of_pending hp, present_read]

/-- The host read map answers after a read what it answered before. -/
theorem hostRead_answerRead (s : State) (addr addr' : Byte) : hostRead (s.answerRead addr) addr' = hostRead s addr' :=
  hostRead_congr (answerRead_out s addr) (answerRead_outLen s addr) (answerRead_ill s addr) addr'

/-- What is still to be presented is no register of the read map. -/
theorem hostRead_pending (s : State) (es : List PortEvent) (addr : Byte) :
    hostRead { s with pending := es } addr = hostRead s addr :=
  hostRead_congr rfl rfl rfl addr

/-- Settles O43: the map by the law of each of its rows, the rest by the one state a read leaves. -/
theorem hostReadMapAndNoSideEffect : Obligations.HostReadMapAndNoSideEffect := by
  refine ⟨fun s addr => ⟨hostRead_out s addr, ?_, ?_, hostRead_reserved s addr⟩, fun s addr rest hp => step_read hp,
    fun s t addr addr' rest hp hstep => ?_⟩
  · rintro rfl
    exact hostRead_outLen s
  · rintro rfl
    exact (hostRead_status s).trans (status_eq s)
  · obtain rfl : { s with pending := rest }.answerRead addr = t := by simpa [step_read hp] using hstep
    rw [hostRead_answerRead, hostRead_pending]

end Sys2Proof.Machine
end

section
/-! PROOFS. The fields of a command word, the rows of the opcode table by match and mask, and which words are illegal
(spec/30_encoding.md rules R61 to R66). -/

namespace Sys2Proof

section
variable (cmd : CmdWord) (data : Word)

theorem cmdOp_toNat : (cmdOp cmd).toNat = cmd.toNat / 4096 := by
  have hlt := cmd.isLt
  rw [cmdOp, BitVec.extractLsb'_toNat, Nat.shiftRight_eq_div_pow]
  omega

theorem cmdA_toNat : (cmdA cmd).toNat = cmd.toNat / 256 % 16 := by
  rw [cmdA, BitVec.extractLsb'_toNat, Nat.shiftRight_eq_div_pow]

/-- Every row of the opcode table masks the high bits of a word, which compares quotients by a power of two (R64). -/
theorem and_highMask_eq_iff (k : Nat) {mask m : CmdWord} (hmask : mask = BitVec.allOnes 16 <<< k)
    (hm : 2 ^ k ∣ m.toNat) : cmd &&& mask = m ↔ cmd.toNat / 2 ^ k = m.toNat / 2 ^ k := by
  have hlt : cmd.toNat / 2 ^ k * 2 ^ k < 2 ^ 16 := (Nat.div_mul_le_self _ _).trans_lt cmd.isLt
  have hand : (cmd &&& mask).toNat = cmd.toNat / 2 ^ k * 2 ^ k := by
    rw [hmask, ← BitVec.shiftLeft_ushiftRight, BitVec.toNat_shiftLeft, BitVec.toNat_ushiftRight, Nat.shiftLeft_eq,
      Nat.shiftRight_eq_div_pow, Nat.mod_eq_of_lt hlt]
  rw [← BitVec.toNat_inj, hand, eq_comm (b := m.toNat / 2 ^ k), Nat.div_eq_iff_eq_mul_left (Nat.two_pow_pos k) hm, eq_comm]

variable {cmd} in
/-- The rows that an opcode alone selects mask exactly the opcode field. -/
theorem cmdOp_of_row {m : CmdWord} {op : Nibble} (h : cmd &&& 0xF000#16 = m) (hm : cmdOp m = op) : cmdOp cmd = op := by
  have hmask : cmdOp 0xF000#16 = BitVec.allOnes 4 := by decide
  calc cmdOp cmd = cmdOp cmd &&& cmdOp 0xF000#16 := by rw [hmask, BitVec.and_allOnes]
    _ = cmdOp (cmd &&& 0xF000#16) := BitVec.extractLsb'_and.symm
    _ = op := by rw [h, hm]

/-! The three rows of INGW that are illegal and the two reserved rows, by match and mask (R66). -/

/-- The illegal words of INGW are one range of numbers. -/
theorem illegalIngw_iff_range :
    (cmdOp cmd = 3#4 ∧ 8 < (cmdA cmd).toNat) ↔ 0x3900 ≤ cmd.toNat ∧ cmd.toNat ≤ 0x3FFF := by
  rw [← BitVec.toNat_inj, cmdOp_toNat, cmdA_toNat, BitVec.toNat_ofNat]
  omega

theorem decode_illegalIngw_of_range (hlo : 0x3900 ≤ cmd.toNat) (hhi : cmd.toNat ≤ 0x3FFF) :
    decode cmd data = decodeIllegalIngw cmd :=
  have ⟨hop, hn⟩ := (illegalIngw_iff_range cmd).2 ⟨hlo, hhi⟩
  decode_op3_illegal cmd data hop hn

theorem decode_illegalIngwN9 (h : cmd &&& 0xFF00#16 = 0x3900#16) : decode cmd data = .illegalIngwN9 cmd := by
  have hq : cmd.toNat / 256 = 57 := (and_highMask_eq_iff cmd 8 (by decide) (by decide)).1 h
  have ha : (cmdA cmd).toNat = 9 := by rw [cmdA_toNat]; omega
  rw [decode_illegalIngw_of_range cmd data (by omega) (by omega), decodeIllegalIngw, if_pos (BitVec.eq_of_toNat_eq ha)]

theorem decode_illegalIngwN10to11 (h : cmd &&& 0xFE00#16 = 0x3A00#16) :
    decode cmd data = .illegalIngwN10to11 cmd := by
  have hq : cmd.toNat / 512 = 29 := (and_highMask_eq_iff cmd 9 (by decide) (by decide)).1 h
  have ha : (cmdA cmd).toNat = 10 ∨ (cmdA cmd).toNat = 11 := by rw [cmdA_toNat]; omega
  have h9 : cmdA cmd ≠ 9#4 := fun e => by simp [e] at ha
  have h11 : cmdA cmd ≤ 11#4 := BitVec.le_def.2 (show (cmdA cmd).toNat ≤ 11 by omega)
  rw [decode_illegalIngw_of_range cmd data (by omega) (by omega), decodeIllegalIngw, if_neg h9, if_pos h11]

theorem decode_illegalIngwN12to15 (h : cmd &&& 0xFC00#16 = 0x3C00#16) :
    decode cmd data = .illegalIngwN12to15 cmd := by
  have hq : cmd.toNat / 1024 = 15 := (and_highMask_eq_iff cmd 10 (by decide) (by decide)).1 h
  have ha : 11 < (cmdA cmd).toNat := by rw [cmdA_toNat]; omega
  have h9 : cmdA cmd ≠ 9#4 := fun e => by simp [e] at ha
  have h11 : ¬ cmdA cmd ≤ 11#4 := BitVec.not_le.2 (BitVec.lt_def.2 ha)
  rw [decode_illegalIngw_of_range cmd data (by omega) (by omega), decodeIllegalIngw, if_neg h9, if_neg h11]

theorem row_reservedOp6to7_iff :
    cmd &&& 0xE000#16 = 0x6000#16 ↔ 6 ≤ (cmdOp cmd).toNat ∧ (cmdOp cmd).toNat ≤ 7 := by
  have hrow : cmd &&& 0xE000#16 = 0x6000#16 ↔ cmd.toNat / 8192 = 3 :=
    and_highMask_eq_iff cmd 13 (by decide) (by decide)
  rw [hrow, cmdOp_toNat]
  omega

theorem row_reservedOp8toF_iff : cmd &&& 0x8000#16 = 0x8000#16 ↔ 8 ≤ (cmdOp cmd).toNat := by
  have hrow : cmd &&& 0x8000#16 = 0x8000#16 ↔ cmd.toNat / 32768 = 1 :=
    and_highMask_eq_iff cmd 15 (by decide) (by decide)
  have hlt := cmd.isLt
  rw [hrow, cmdOp_toNat]
  omega

theorem decode_reservedOp6to7 (h : cmd &&& 0xE000#16 = 0x6000#16) : decode cmd data = .reservedOp6to7 cmd := by
  obtain ⟨h6, h7⟩ := (row_reservedOp6to7_iff cmd).1 h
  rw [decode_reserved cmd data h6, decodeReserved, if_pos (BitVec.le_def.2 h7)]

theorem decode_reservedOp8toF (h : cmd &&& 0x8000#16 = 0x8000#16) : decode cmd data = .reservedOp8toF cmd := by
  have h8 := (row_reservedOp8toF_iff cmd).1 h
  have h7 : ¬ cmdOp cmd ≤ 7#4 := BitVec.not_le.2 (BitVec.lt_def.2 h8)
  rw [decode_reserved cmd data (by omega), decodeReserved, if_neg h7]

/-- The illegal words by their fields (R66). -/
theorem decode_illegal_iff :
    (decode cmd data).illegalWord.isSome ↔ 6 ≤ (cmdOp cmd).toNat ∨ (cmdOp cmd = 3#4 ∧ 8 < (cmdA cmd).toNat) := by
  rcases decode_cases cmd data with ⟨hop, hd⟩ | ⟨hop, hd⟩ | ⟨hop, hd⟩ | ⟨hop, hn, hd⟩ | ⟨hop, hn, hd⟩ | ⟨hop, hd⟩ |
    ⟨hop, hd⟩ | ⟨hop, hd⟩
  · simp [hd, hop, Instr.illegalWord]
  · simp [hd, hop, Instr.illegalWord]
  · simp [hd, hop, Instr.illegalWord]
  · simp [hd, hop, hn, Instr.illegalWord]
  · simp [hd, hop, hn, decodeIllegalIngw_illegalWord]
  · simp [hd, hop, Instr.illegalWord]
  · simp [hd, hop, Instr.illegalWord]
  · simp [hd, hop, decodeReserved_illegalWord]

end

open Machine

/-- Settles O1: one law of the decoder for each arm, and the reserved opcodes by their two rows. -/
theorem decodeFollowsRuleR65 : Obligations.DecodeFollowsRuleR65 := by
  intro cmd data
  refine ⟨decode_op0 cmd data, decode_op1 cmd data, decode_op2 cmd data, decode_op3_legal cmd data, fun h hn => ?_,
    decode_op4 cmd data, decode_op5 cmd data, fun h => ?_, ?_⟩
  · rw [decode_op3_illegal cmd data h hn, decodeIllegalIngw_illegalWord]
  · rw [decode_reserved cmd data h, decodeReserved_illegalWord]
  · calc 6 ≤ (cmdOp cmd).toNat
        ↔ (6 ≤ (cmdOp cmd).toNat ∧ (cmdOp cmd).toNat ≤ 7) ∨ 8 ≤ (cmdOp cmd).toNat := by omega
      _ ↔ _ := or_congr (row_reservedOp6to7_iff cmd).symm (row_reservedOp8toF_iff cmd).symm

/-- Settles O2: each row by its mask, the illegal words by their fields, and one law for what all of them do. -/
theorem illegalEncodingsOfRuleR66 : Obligations.IllegalEncodingsOfRuleR66 := fun cmd data =>
  ⟨decode_illegalIngwN9 cmd data, decode_illegalIngwN10to11 cmd data, decode_illegalIngwN12to15 cmd data,
    decode_reservedOp6to7 cmd data, decode_reservedOp8toF cmd data,
    (decode_illegal_iff cmd data).trans (or_congr_right (illegalIngw_iff_range cmd)),
    fun h s => exec_illegalWord s h⟩

end Sys2Proof
end

section
/-! PROOFS. Decoding gives back what was encoded, the bits a format does not read, and the words the assembler writes
(spec/30_encoding.md rules R62, R69, R70). -/

namespace Sys2Proof

theorem cmdA_or_operand {m : CmdWord} (hm : cmdA m = 0#4) (a : Nibble) : cmdA (m ||| a.setWidth 16 <<< 8) = a := by
  have ha : cmdA (a.setWidth 16 <<< 8) = a := by revert a; decide
  calc cmdA (m ||| a.setWidth 16 <<< 8) = cmdA m ||| cmdA (a.setWidth 16 <<< 8) := BitVec.extractLsb'_or
    _ = a := by rw [hm, ha, BitVec.zero_or]

theorem cmdB_or_operand {m : CmdWord} (hm : cmdB m = 0#8) (b : Byte) : cmdB (m ||| b.setWidth 16) = b := by
  have hb : cmdB (b.setWidth 16) = b := by
    rw [cmdB, ← BitVec.setWidth_eq_extractLsb' (by decide), BitVec.setWidth_setWidth_of_le _ (by decide),
      BitVec.setWidth_eq]
  calc cmdB (m ||| b.setWidth 16) = cmdB m ||| cmdB (b.setWidth 16) := BitVec.extractLsb'_or
    _ = b := by rw [hm, hb, BitVec.zero_or]

/-- Decoding the encoding of a well-formed command gives it back: a legal command by the row its word lies in and the field
its operand lies in, an illegal one by the row of its own word (R64, R69). -/
theorem decode_encode {i : Instr} (h : i.wf = true) : decode (encode i).1 (encode i).2 = i := by
  cases i with
  | nop => rfl
  | clear => rfl
  | ingb b =>
    have hop : cmdOp (encode (.ingb b)).1 = 2#4 :=
      cmdOp_of_row (m := 0x2000#16) (Laws.EncodesInRow.ingb b h) (by decide)
    rw [decode_op2 _ _ hop, encode, cmdB_or_operand (by decide)]
  | ingw n data =>
    have hop : cmdOp (encode (.ingw n data)).1 = 3#4 :=
      cmdOp_of_row (m := 0x3000#16) (Laws.EncodesInRow.ingw n data h) (by decide)
    have ha : cmdA (encode (.ingw n data)).1 = n := cmdA_or_operand (by decide) n
    rw [decode_op3_legal _ _ hop (by rw [ha]; exact (wf_ingw data n).1 h), ha, encode]
  | fin sel =>
    have hop : cmdOp (encode (.fin sel)).1 = 4#4 :=
      cmdOp_of_row (m := 0x4000#16) (Laws.EncodesInRow.fin sel h) (by decide)
    rw [decode_op4 _ _ hop, encode, cmdA_or_operand (by decide)]
  | tblrd idx =>
    have hop : cmdOp (encode (.tblrd idx)).1 = 5#4 :=
      cmdOp_of_row (m := 0x5000#16) (Laws.EncodesInRow.tblrd idx h) (by decide)
    rw [decode_op5 _ _ hop, encode, cmdB_or_operand (by decide)]
  | illegalIngwN9 cmd => exact decode_illegalIngwN9 cmd 0 (Laws.EncodesInRow.illegalIngwN9 cmd h)
  | illegalIngwN10to11 cmd => exact decode_illegalIngwN10to11 cmd 0 (Laws.EncodesInRow.illegalIngwN10to11 cmd h)
  | illegalIngwN12to15 cmd => exact decode_illegalIngwN12to15 cmd 0 (Laws.EncodesInRow.illegalIngwN12to15 cmd h)
  | reservedOp6to7 cmd => exact decode_reservedOp6to7 cmd 0 (Laws.EncodesInRow.reservedOp6to7 cmd h)
  | reservedOp8toF cmd => exact decode_reservedOp8toF cmd 0 (Laws.EncodesInRow.reservedOp8toF cmd h)

end Sys2Proof

namespace Sys2Proof.Machine

/-- The conclusion of R62: two decoded commands are both legal or both illegal and do the same to every state. -/
def SameCommand (i j : Instr) : Prop :=
  i.illegalWord.isSome = j.illegalWord.isSome ∧ ∀ s : State, exec i s = exec j s

theorem sameCommand_of_eq {i j : Instr} (h : i = j) : SameCommand i j := by
  subst h
  exact ⟨rfl, fun _ => rfl⟩

theorem sameCommand_of_illegal {i j : Instr} (hi : i.illegalWord.isSome) (hj : j.illegalWord.isSome) :
    SameCommand i j :=
  ⟨hi.trans hj.symm, fun s => (exec_illegalWord s hi).trans (exec_illegalWord s hj).symm⟩

theorem sameCommand_ingw {n : Nibble} {data data' : Word} (hn : n.toNat ≤ 8)
    (hlanes : ∀ k < n.toNat, byteLane data k = byteLane data' k) : SameCommand (.ingw n data) (.ingw n data') :=
  ⟨rfl, fun s => by rw [exec_ingw_legal s n data hn, exec_ingw_legal s n data' hn, byteLanes_congr hlanes]⟩

/-- INGW reads its count and the lanes below it, and where the count is illegal nothing more (R62, R66). -/
theorem sameCommand_decode_op3 {cmd cmd' : CmdWord} {data data' : Word} (hop : cmdOp cmd = 3#4)
    (hop' : cmdOp cmd' = 3#4) (ha : cmdA cmd = cmdA cmd')
    (hlanes : ∀ k < (cmdA cmd).toNat, byteLane data k = byteLane data' k) :
    SameCommand (decode cmd data) (decode cmd' data') := by
  by_cases hn : (cmdA cmd).toNat ≤ 8
  case pos =>
    rw [decode_op3_legal cmd data hop hn, decode_op3_legal cmd' data' hop' (ha ▸ hn), ← ha]
    exact sameCommand_ingw hn hlanes
  case neg =>
    have hn : 8 < (cmdA cmd).toNat := Nat.lt_of_not_le hn
    exact sameCommand_of_illegal ((decode_illegal_iff cmd data).2 (.inr ⟨hop, hn⟩))
      ((decode_illegal_iff cmd' data').2 (.inr ⟨hop', ha ▸ hn⟩))

/-- `ING` expands to encodings of well-formed commands: no group has more than eight bytes (R70). -/
theorem mem_ingGroups {p : CmdWord × Word} {k : Nat} {bytes : List Byte} (hp : p ∈ ingGroups k bytes) :
    ∃ i : Instr, i.wf = true ∧ p = encode i := by
  induction k generalizing bytes with
  | zero => cases hp
  | succ k ih =>
    by_cases hb : bytes = []
    case pos => simp [ingGroups, hb] at hp
    case neg =>
      rw [ingGroups, if_neg hb, List.mem_cons] at hp
      rcases hp with rfl | hp
      · refine ⟨_, (wf_ingw _ _).2 ?_, rfl⟩
        rw [BitVec.toNat_ofNat]
        omega
      · exact ih hp

/-- The range checks of R69 let only encodings of well-formed commands through. -/
theorem mem_assemble {a : AsmStatement} {out : List (CmdWord × Word)} (h : assemble a = some out)
    {p : CmdWord × Word} (hp : p ∈ out) : ∃ i : Instr, i.wf = true ∧ p = encode i := by
  cases a with
  | nop | clear | finNamed sel =>
    cases h
    exact ⟨_, rfl, List.mem_singleton.1 hp⟩
  | ingb x | fin x | tblrd x =>
    obtain ⟨_, ⟨⟩⟩ := Option.ite_none_right_eq_some.1 h
    exact ⟨_, rfl, List.mem_singleton.1 hp⟩
  | ingw n d =>
    obtain ⟨⟨hn, _⟩, rfl⟩ : (n ≤ 8 ∧ _) ∧ _ := by simpa [assemble] using h
    refine ⟨_, (wf_ingw _ _).2 ?_, List.mem_singleton.1 hp⟩
    rw [BitVec.toNat_ofNat]
    omega
  | ing bytes =>
    obtain ⟨_, ⟨⟩⟩ := Option.ite_none_right_eq_some.1 h
    exact mem_ingGroups hp

/-- Settles O3: a format's unread bits by the decoder's law for its opcode, the assembler's by `decode_encode`. -/
theorem unreadBitsHaveNoEffect : Obligations.UnreadBitsHaveNoEffect := by
  refine ⟨fun cmd cmd' data data' hop hread => ?_, fun a out h p hp => ?_⟩
  · change cmdOp cmd = cmdOp cmd' at hop
    change SameCommand (decode cmd data) (decode cmd' data')
    rcases hread with h0 | h1 | h6 | ⟨h2 | h5, hB⟩ | ⟨h4, hA⟩ | ⟨h3, hA, hlanes⟩
    · exact sameCommand_of_eq ((decode_op0 cmd data h0).trans (decode_op0 cmd' data' (hop.symm.trans h0)).symm)
    · exact sameCommand_of_eq ((decode_op1 cmd data h1).trans (decode_op1 cmd' data' (hop.symm.trans h1)).symm)
    · exact sameCommand_of_illegal ((decode_illegal_iff cmd data).2 (.inl h6))
        ((decode_illegal_iff cmd' data').2 (.inl (h6.trans_eq (congrArg BitVec.toNat hop))))
    · have hd : decode cmd data = .ingb (cmdB cmd') := (decode_op2 cmd data h2).trans (congrArg Instr.ingb hB)
      exact sameCommand_of_eq (hd.trans (decode_op2 cmd' data' (hop.symm.trans h2)).symm)
    · have hd : decode cmd data = .tblrd (cmdB cmd') := (decode_op5 cmd data h5).trans (congrArg Instr.tblrd hB)
      exact sameCommand_of_eq (hd.trans (decode_op5 cmd' data' (hop.symm.trans h5)).symm)
    · have hd : decode cmd data = .fin (cmdA cmd') := (decode_op4 cmd data h4).trans (congrArg Instr.fin hA)
      exact sameCommand_of_eq (hd.trans (decode_op4 cmd' data' (hop.symm.trans h4)).symm)
    · exact sameCommand_decode_op3 h3 (hop.symm.trans h3) hA hlanes
  · obtain ⟨i, hwf, rfl⟩ := mem_assemble h hp
    rw [decode_encode hwf]

end Sys2Proof.Machine
end

section
/-! PROOFS. The table ROM, its construction by bit steps and by division, and TBLRD (spec/40_table.md rules R81, R82, R85). -/

namespace Sys2Proof.Machine

/-! ## The ROM image is the construction (R81, R82) -/

theorem romImage_toList : romImage.toList = romEntries := List.toList_toArray

/-- The one computation over the transcribed table: all 256 entries of R82 are those of the construction rule. -/
theorem romEntries_eq_map_gen : romEntries = (List.range 256).map fun i => gen hw.poly (BitVec.ofNat 8 i) := by
  decide +kernel

theorem romRead_eq_gen (i : Byte) : romRead hw i = gen hw.poly i :=
  calc romRead hw i = romImage[i.toNat] := rfl
    _ = romImage.toList[i.toNat]'(by simp [i.isLt]) := by rw [Vector.getElem_toList]
    _ = gen hw.poly i := by
      simp only [romImage_toList, romEntries_eq_map_gen, List.getElem_map, List.getElem_range, BitVec.ofNat_toNat,
        BitVec.setWidth_eq]

/-! ## The bit step is the reflected shift register (R81, R102) -/

theorem reverse_xor {w : Nat} (a b : BitVec w) : (a ^^^ b).reverse = a.reverse ^^^ b.reverse := by
  ext i hi
  simp only [BitVec.getElem_reverse, BitVec.getElem_xor, BitVec.getMsbD_xor]

theorem reverse_shiftLeft {w : Nat} (a : BitVec w) (n : Nat) : (a <<< n).reverse = a.reverse >>> n := by
  ext i hi
  rw [BitVec.getElem_reverse, BitVec.getMsbD_shiftLeft, BitVec.getElem_ushiftRight, BitVec.getLsbD_reverse,
    Nat.add_comm]

theorem polyMsb_reverse : polyMsb.reverse = hw.poly := by decide +kernel

theorem reduceBit_reverse (v : Word) : reduceBit hw.poly v.reverse = (shiftOut v).reverse := by
  rw [reduceBit, shiftOut, BitVec.getLsbD_reverse]
  split
  · rw [reverse_xor, reverse_shiftLeft, polyMsb_reverse]
  · rw [reverse_shiftLeft]

theorem reverse_iterate_shiftOut (n : Nat) (v : Word) :
    (shiftOut^[n] v).reverse = (reduceBit hw.poly)^[n] v.reverse :=
  Function.Semiconj.iterate_right (fun v => (reduceBit_reverse v).symm) n v

/-! ## The division by `G` runs the shift register (R81) -/

/-- The bit that a shift drops from the register, kept as the term `x^64` of the dividend. -/
theorem setWidth_shiftLeft_one (r : Word) :
    r.setWidth 72 <<< 1 = (r <<< 1).setWidth 72 ^^^ (BitVec.ofBool (r.getMsbD 0)).setWidth 72 <<< 64 := by
  ext j hj
  rcases Nat.lt_trichotomy j 64 with hlt | rfl | hgt
  · have h72 : j - 1 < 72 := by omega
    simp [hlt, h72, Bool.and_assoc, ← BitVec.getLsbD_eq_getElem]
  · simp [BitVec.getMsbD_eq_getLsbD]
  · have hr : r.getLsbD (j - 1) = false := BitVec.getLsbD_of_ge r _ (by omega)
    have hne : j - 64 ≠ 0 := by omega
    simp [hr, hne, hgt.not_gt]

/-- The term `x^64` of `G` cancels the dropped bit, and the rest of `G` is the register's polynomial. -/
theorem setWidth_shiftOut (r : Word) :
    (shiftOut r).setWidth 72 = if r.getMsbD 0 then r.setWidth 72 <<< 1 ^^^ divisor else r.setWidth 72 <<< 1 := by
  have hdivisor : (BitVec.ofBool true).setWidth 72 <<< 64 ^^^ divisor = polyMsb.setWidth 72 := by decide
  rw [setWidth_shiftLeft_one, shiftOut]
  cases r.getMsbD 0 with
  | true => simp only [if_true, BitVec.setWidth_xor, BitVec.xor_assoc, hdivisor]
  | false => simp

theorem getLsbD_setWidth_shiftLeft {k : Nat} (hk : k < 8) (r : Word) :
    (r.setWidth 72 <<< (k + 1)).getLsbD (64 + k) = r.getMsbD 0 := by
  have h63 : 64 + k - (k + 1) = 63 := by omega
  simp [BitVec.getMsbD_eq_getLsbD, h63]
  omega

theorem polyRemainder_succ_shiftLeft {k : Nat} (hk : k < 8) (r : Word) :
    polyRemainder (k + 1) (r.setWidth 72 <<< (k + 1)) = polyRemainder k ((shiftOut r).setWidth 72 <<< k) := by
  rw [polyRemainder, getLsbD_setWidth_shiftLeft hk, setWidth_shiftOut, Nat.add_comm k, BitVec.shiftLeft_add]
  split
  · rw [BitVec.shiftLeft_xor_distrib]
  · rfl

/-- Long division of `r · x^k` leaves what `k` shifts leave in the register that starts at `r`. -/
theorem polyRemainder_shiftLeft {k : Nat} (hk : k ≤ 8) (r : Word) :
    polyRemainder k (r.setWidth 72 <<< k) = (shiftOut^[k] r).setWidth 72 := by
  induction k generalizing r with
  | zero => rw [polyRemainder, BitVec.shiftLeft_zero, Function.iterate_zero_apply]
  | succ k ih => rw [polyRemainder_succ_shiftLeft hk, ih (by omega), Function.iterate_succ_apply]

theorem setWidth_shiftLeft_64 (b : Byte) : b.setWidth 72 <<< 64 = (b.setWidth 64 <<< 56).setWidth 72 <<< 8 := by
  revert b
  decide

theorem reverse_setWidth_shiftLeft_56 (b : Byte) : (b.reverse.setWidth 64 <<< 56).reverse = b.setWidth 64 := by
  ext j hj
  rw [BitVec.getElem_reverse, BitVec.getMsbD_shiftLeft, BitVec.getMsbD_setWidth, BitVec.getMsbD_reverse,
    BitVec.getElem_setWidth]
  simp

/-- The two constructions of R81 agree. -/
theorem tableByDivision_eq_gen (i : Byte) : tableByDivision i = gen hw.poly i :=
  calc tableByDivision i
      = (shiftOut^[8] (i.reverse.setWidth 64 <<< 56)).reverse := by
        rw [tableByDivision, setWidth_shiftLeft_64, polyRemainder_shiftLeft le_rfl,
          BitVec.setWidth_setWidth_of_le _ (by decide), BitVec.setWidth_eq]
    _ = (reduceBit hw.poly)^[8] (i.setWidth 64) := by
        rw [reverse_iterate_shiftOut, reverse_setWidth_shiftLeft_56]
    _ = gen hw.poly i := rfl

/-- Settles O9: the transcribed table is the construction by bit steps, and that is the division. -/
theorem romEntriesFollowTheConstruction : Obligations.RomEntriesFollowTheConstruction := fun i =>
  ⟨romRead_eq_gen i, (romRead_eq_gen i).trans (tableByDivision_eq_gen i).symm⟩

/-! ## TBLRD (R85) -/

/-- Settles O11: the row of opcode 5, the canonical word by definition, and the output buffer's law for eight bytes. -/
theorem tblrdReadsOneEntry : Obligations.TblrdReadsOneEntry := by
  refine ⟨fun cmd data h => decode_op5 cmd data (cmdOp_of_row h (by decide)), fun idx => rfl, fun idx s =>
    ⟨_, exec_tblrd s idx, fun k hk => ?_, by simp, writeOut_acc s _, writeOut_ill s _, writeOut_pending s _,
      writeOut_readLog s _⟩⟩
  have hlen : (byteLanes 8 (romRead hw idx)).length ≤ 16 := by simp
  have houtLen : (s.writeOut (byteLanes 8 (romRead hw idx))).outLen.toNat = 8 := by simp
  rw [writeOut_out_getElem s hlen, houtLen]
  split
  case isTrue hlt => rw [byteLanes_getD 8 _ k hlt, byteLane]
  case isFalse => rfl

end Sys2Proof.Machine
end

section
/-! PROOFS. The transform, the byte step, INGB and INGW (spec/41_ingest.md rules R90, R93, R95, R97, R98). -/

namespace Sys2Proof.Machine

/-! ## The transform and the byte step (R90, R93) -/

/-- Settles O12: `FLIP_MASK` is all ones, so `flip` is the complement, and the complement of `v` is `2^64 - 1 - v`. -/
theorem flipIsOnesComplement : Obligations.FlipIsOnesComplement := fun v =>
  ⟨by rw [flipWord_hw, BitVec.toNat_not], flipWord_hw v, rfl⟩

/-- The logical shift leaves nothing in the top byte (R93). -/
theorem byteLane_seven_ushiftRight_eight (w : Word) : byteLane (w >>> 8) 7 = 0#8 := by
  have hlt := w.isLt
  apply BitVec.eq_of_toNat_eq
  rw [byteLane, BitVec.extractLsb'_toNat, BitVec.toNat_ushiftRight, ← Nat.shiftRight_add, Nat.shiftRight_eq_div_pow,
    Nat.div_eq_of_lt hlt]
  rfl

/-- Settles O13: the formula is the definition of the byte step. -/
theorem byteStepIsTableXorShift : Obligations.ByteStepIsTableXorShift := fun w _ =>
  ⟨rfl, byteLane_seven_ushiftRight_eight w⟩

/-! ## The working forms of an ingest (R98) -/

/-- The working form after the first `k` bytes of an ingest (R98). -/
def workingForm (c : Config) (acc : Word) (bytes : List Byte) (k : Nat) : Word :=
  (bytes.take k).foldl (byteStep c) (flipWord c acc)

section
variable (c : Config) (acc : Word) (bytes : List Byte)

theorem workingForm_zero : workingForm c acc bytes 0 = flipWord c acc := rfl

theorem workingForm_succ {k : Nat} (hk : k < bytes.length) :
    workingForm c acc bytes (k + 1) = byteStep c (workingForm c acc bytes k) bytes[k] := by
  rw [workingForm, List.take_succ_eq_append_getElem hk, List.foldl_append, List.foldl_cons, List.foldl_nil, workingForm]

theorem ingest_eq_flipWord_workingForm : ingest c acc bytes = flipWord c (workingForm c acc bytes bytes.length) := by
  rw [workingForm, List.take_length, ingest]

end

/-- Settles O14: the working forms after each number of bytes, and the law of each ingest command. -/
theorem ingestRunsThroughWorkingForms : Obligations.IngestRunsThroughWorkingForms :=
  ⟨fun acc bytes => ⟨workingForm hw acc bytes, workingForm_zero hw acc bytes, fun _ hk => workingForm_succ hw acc bytes hk,
    ingest_eq_flipWord_workingForm hw acc bytes⟩,
    fun b s => exec_ingb s b, fun n data s hn => exec_ingw_legal s n data hn⟩

/-! ## INGB (R95) -/

/-- Settles O15: the row of opcode 2, an ingest of one byte, and the three corner cases evaluated. -/
theorem ingbUpdatesAccumulator : Obligations.IngbUpdatesAccumulator :=
  ⟨fun cmd data h => decode_op2 cmd data (cmdOp_of_row h (by decide)), fun _ => rfl, fun b s => exec_ingb s b,
    by decide, by decide, by decide⟩

/-! ## INGW (R97) -/

/-- Ingesting byte lanes folds the byte step over the lane numbers. -/
theorem ingest_byteLanes (c : Config) (acc : Word) (n : Nat) (data : Word) :
    ingest c acc (byteLanes n data) =
      flipWord c ((List.range n).foldl (fun w k => byteStep c w (byteLane data k)) (flipWord c acc)) := by
  rw [ingest, byteLanes, List.foldl_map]

/-- `flip` undoes itself, so an ingest of no byte is none. -/
@[simp] theorem ingest_nil (c : Config) (acc : Word) : ingest c acc [] = acc := flipWord_flipWord c acc

theorem exec_ingw_zero (data : Word) (s : State) : exec (.ingw 0 data) s = .next s := by
  have hlanes : byteLanes (0 : Nibble).toNat data = [] := byteLanes_zero data
  rw [exec_ingw_legal s 0 data (by decide), hlanes, ingest_nil, State.setAcc]

theorem exec_ingw_one (data : Word) (s : State) : exec (.ingw 1 data) s = exec (.ingb (byteLane data 0)) s := by
  have hlanes : byteLanes (1 : Nibble).toNat data = [byteLane data 0] := byteLanes_succ 0 data
  rw [exec_ingw_legal s 1 data (by decide), hlanes, exec_ingb]

/-- INGW reads no lane from its count on; above eight it reads none. -/
theorem exec_ingw_congr {n : Nibble} {data data' : Word} (s : State)
    (hlanes : ∀ k < n.toNat, byteLane data k = byteLane data' k) : exec (.ingw n data) s = exec (.ingw n data') s := by
  rcases Nat.lt_or_ge 8 n.toNat with hn | hn
  · rw [exec_ingw_illegal s n data hn, exec_ingw_illegal s n data' hn]
  · exact (sameCommand_ingw hn hlanes).2 s

/-- Settles O16: the row of opcode 3, the legal INGW as an ingest of its lanes, its cases `N` = 0 and `N` = 1, and the
illegal INGW. -/
theorem ingwFoldsItsLanes : Obligations.IngwFoldsItsLanes := by
  refine ⟨fun cmd data h hn => decode_op3_legal cmd data (cmdOp_of_row h (by decide)) hn, fun _ _ => rfl,
    fun n data s hn => ?_, exec_ingw_zero, exec_ingw_one, fun n data data' s => exec_ingw_congr s,
    fun n data s => exec_ingw_illegal s n data⟩
  rw [exec_ingw_legal s n data hn, ingest_byteLanes]
  rfl

end Sys2Proof.Machine
end

section
/-! PROOFS. One input after another: what `ACC` is after an input and after a run, and that a run may be cut anywhere
(spec/10_state.md rule R21, spec/20_memory.md rule R43). -/

namespace Sys2Proof.Machine

/-! ## Runs cut into parts -/

section
variable {e : PortEvent} {es : List PortEvent} {s t : State}

/-- An input does the same whatever comes after it. -/
theorem present_setPending (rest : List PortEvent) (h : present e s = .next t) :
    present e { s with pending := rest } = .next { t with pending := rest } := by
  cases e with
  | command cmd data =>
    rw [present_command] at h
    rw [present_command, exec_pending, h]
  | read addr | reset | powerCycle => cases h; rfl

/-- The inputs still to come need not be named when the first of a run is taken. -/
theorem runPort_cons_of_present (h : present e s = .next t) : runPort (e :: es) s = runPort es t := by
  rw [runPort_cons, present_setPending es h]
  rfl

theorem runPort_singleton (h : present e s = .next t) : runPort [e] s = .next { t with pending := [] } := by
  rw [runPort_cons_of_present h, runPort_nil]

theorem runPort_append {fs : List PortEvent} (h : runPort es s = .next t) : runPort (es ++ fs) s = runPort fs t := by
  induction es generalizing s with
  | nil => cases h; rfl
  | cons e es ih =>
    obtain ⟨v, hv⟩ := present_completes e s
    rw [runPort_cons_of_present hv] at h
    rw [List.cons_append, runPort_cons_of_present hv, ih h]

end

/-! ## `ACC` after an input and after a run -/

/-- `ACC` after a port input, from `ACC` before it: CLEAR and reset give its initial value, every other input the ingest
of its bytes. -/
def accAfter (acc : Word) : PortEvent → Word
  | .command cmd data => if decode cmd data = .clear then 0#64 else ingest hw acc (ingestedBytes (decode cmd data))
  | .read _ => acc
  | .reset => 0#64
  | .powerCycle => 0#64

/-- With a legal count (R66), `ACC` after a command is the ingest of the command's bytes, except for CLEAR. -/
theorem exec_acc {i : Instr} {s t : State} (hn : ∀ n data, i = .ingw n data → n.toNat ≤ 8) (h : exec i s = .next t) :
    t.acc = if i = .clear then 0#64 else ingest hw s.acc (ingestedBytes i) := by
  rcases exec_cases h with ⟨rfl, rfl⟩ | ⟨rfl, rfl⟩ | ⟨b, rfl, rfl⟩ | ⟨n, data, rfl, _, rfl⟩ | ⟨n, data, hi, hlt, _⟩ |
    ⟨sel, rfl, rfl⟩ | ⟨idx, rfl, rfl⟩ | ⟨hi, rfl⟩
  · simp [ingestedBytes]
  · simp
  · simp [ingestedBytes]
  · simp [ingestedBytes]
  · exact absurd (hn n data hi) (by omega)
  · simp [ingestedBytes]
  · simp [ingestedBytes]
  · cases i <;> simp [Instr.illegalWord, ingestedBytes] at hi ⊢

theorem present_acc {e : PortEvent} {s t : State} (h : present e s = .next t) : t.acc = accAfter s.acc e := by
  cases e with
  | command cmd data => exact exec_acc (fun _ _ => decode_ingw_count_le) h
  | read addr | reset | powerCycle => cases h; rfl

theorem runPort_acc (es : List PortEvent) (s : State) :
    ∃ t, runPort es s = .next t ∧ t.acc = es.foldl accAfter s.acc :=
  runPort_foldl (obs := State.acc) (fun _ _ => rfl) (fun _ _ _ _ h => present_acc h) s

theorem accAfter_of_isFin {e : PortEvent} (he : isFin e = true) (acc : Word) : accAfter acc e = acc := by
  cases e with
  | command cmd data =>
    have hop : cmdOp cmd = 4#4 := by simpa [isFin] using he
    simp [accAfter, decode_op4 cmd data hop, ingestedBytes]
  | read addr | reset | powerCycle => cases he

/-- Deleting the FIN commands of a run changes nothing of what the run makes of `ACC` (R111). -/
theorem foldl_accAfter_filter_isFin (es : List PortEvent) (acc : Word) :
    (es.filter fun e => !isFin e).foldl accAfter acc = es.foldl accAfter acc := by
  rw [List.foldl_filter]
  refine List.foldl_ext _ _ acc fun acc e _ => ?_
  cases he : isFin e with
  | true => simp [accAfter_of_isFin he]
  | false => rfl

end Sys2Proof.Machine
end

section
/-! PROOFS. The bytes, digits and characters of the three encodings (spec/42_finalize.md rules R112 to R114). -/

namespace Sys2Proof.Machine

/-! ## The buffer digest (R112) -/

theorem encBuffer_getD (c : Config) (acc : Word) {k : Nat} (hk : k < 8) :
    (encBuffer c acc).getD k 0#8 = byteLane acc k := by
  rw [encBuffer, Config.accWidth_eq, byteLanes_getD _ _ _ hk]

/-- A 64-bit value is its eight byte lanes, lane 7 first. -/
theorem append_byteLane (v : Word) :
    byteLane v 7 ++ byteLane v 6 ++ byteLane v 5 ++ byteLane v 4 ++ byteLane v 3 ++ byteLane v 2 ++ byteLane v 1 ++
      byteLane v 0 = v := by
  simp (disch := decide) only [byteLane, BitVec.extractLsb'_append_extractLsb'_eq_extractLsb']
  exact BitVec.extractLsb'_eq_self

theorem eq_of_byteLane_eq {v w : Word} (h : ∀ k < 8, byteLane v k = byteLane w k) : v = w := by
  rw [← append_byteLane v, ← append_byteLane w]
  simp [h]

theorem byteLane_zero_or_shiftLeft (b : Byte) (v : Word) : byteLane (b.setWidth 64 ||| v <<< 8) 0 = b := by
  ext i hi
  have h64 : i < 64 := by omega
  simp [byteLane, hi, h64]

theorem byteLane_succ_or_shiftLeft (b : Byte) (v : Word) {k : Nat} (hk : k + 1 < 8) :
    byteLane (b.setWidth 64 ||| v <<< 8) (k + 1) = byteLane v k := by
  ext i hi
  have h64 : 8 * (k + 1) + i < 64 := by omega
  have hsub : 8 * (k + 1) + i - 8 = 8 * k + i := by omega
  have hge : 8 ≤ 8 * (k + 1) + i := by omega
  simp [byteLane, h64, hsub, hge.not_gt, BitVec.getLsbD_of_ge b _ hge, ← BitVec.getLsbD_eq_getElem]

/-- Packing puts byte `k` of a list in lane `k` (R70). -/
theorem byteLane_packLanes (bytes : List Byte) {k : Nat} (hk : k < 8) :
    byteLane (packLanes bytes) k = bytes.getD k 0#8 := by
  induction bytes generalizing k with
  | nil => simp [packLanes, byteLane]
  | cons b bs ih =>
    cases k with
    | zero => exact byteLane_zero_or_shiftLeft b _
    | succ k => rw [packLanes, byteLane_succ_or_shiftLeft b _ hk, ih (by omega), List.getD_cons_succ]

theorem encBuffer_packLanes (c : Config) {bytes : List Byte} (h : bytes.length = 8) :
    encBuffer c (packLanes bytes) = bytes := by
  apply List.ext_getElem
  · rw [encBuffer_length, h]
  · intro k hk hk'
    have hk8 : k < 8 := h ▸ hk'
    rw [← List.getD_eq_getElem _ 0#8, ← List.getD_eq_getElem _ 0#8, encBuffer_getD c _ hk8, byteLane_packLanes _ hk8]

theorem encBuffer_injective (c : Config) : Function.Injective (encBuffer c) := fun v w h =>
  eq_of_byteLane_eq fun k hk => by rw [← encBuffer_getD c v hk, h, encBuffer_getD c w hk]

/-! ## The hex digest (R113) -/

/-- A digit's code is in one of the two ranges of ASCII. -/
theorem hexChar_eq (d : Nibble) :
    hexChar d = if d.toNat ≤ 9 then 0x30#8 + d.setWidth 8 else 0x41#8 + (d.setWidth 8 - 10#8) := rfl

/-- Character `j` is the digit as far from the most significant one. -/
theorem encHex_getD (c : Config) (acc : Word) {j : Nat} (hj : j < (encHex c acc).length) :
    (encHex c acc).getD j 0#8 = hexChar (hexDigit acc ((encHex c acc).length - 1 - j)) := by
  rw [List.getD_eq_getElem _ _ hj]
  simp [encHex]

theorem hexWidth_zero : hexWidth 0#64 = 1 := by decide

/-- `hexWidth` digits are needed: the first is no zero. -/
theorem pow_hexWidth_le {acc : Word} (h : acc ≠ 0#64) : 16 ^ (hexWidth acc - 1) ≤ acc.toNat := by
  have hne : acc.toNat ≠ 0 := fun h0 => h (BitVec.eq_of_toNat_eq h0)
  calc 16 ^ (hexWidth acc - 1) = 2 ^ (4 * (acc.toNat.log2 / 4)) := by rw [Nat.pow_mul]; rfl
    _ ≤ 2 ^ acc.toNat.log2 := Nat.pow_le_pow_right (by decide) (Nat.mul_div_le _ 4)
    _ ≤ acc.toNat := Nat.log2_self_le hne

/-! ## The base64 digest (R114) -/

/-- The alphabet of R114 in order of index. -/
def base64Alphabet : List Byte :=
  (List.range 26).map (fun k => BitVec.ofNat 8 (0x41 + k)) ++ (List.range 26).map (fun k => BitVec.ofNat 8 (0x61 + k)) ++
  (List.range 10).map (fun k => BitVec.ofNat 8 (0x30 + k)) ++ [0x2B, 0x2F]

theorem base64Char_eq_getD (q : BitVec 6) : base64Char q = base64Alphabet.getD q.toNat 0#8 := by
  revert q
  decide

/-- The bits that base64 cuts into groups of six: the buffer bytes in order, then a zero byte (R114). -/
def base64Bits (acc : Word) : BitVec 72 :=
  byteLane acc 0 ++ byteLane acc 1 ++ byteLane acc 2 ++ byteLane acc 3 ++ byteLane acc 4 ++ byteLane acc 5 ++
    byteLane acc 6 ++ byteLane acc 7 ++ 0x00#8

theorem append_threeBytes {n : Nat} (x : BitVec n) (a b c : Byte) :
    x ++ a ++ b ++ c = (x ++ (a ++ b ++ c) : BitVec (n + 24)) := by
  apply BitVec.eq_of_toNat_eq
  simp only [BitVec.toNat_append, Nat.shiftLeft_or_distrib, ← Nat.shiftLeft_add, Nat.or_assoc]

theorem extractLsb'_extractLsb' {n : Nat} (x : BitVec n) {s m t k : Nat} (h : t + k ≤ m) :
    (x.extractLsb' s m).extractLsb' t k = x.extractLsb' (s + t) k := by
  ext i hi
  have hm : t + i < m := by omega
  simp [hm, Nat.add_assoc]

/-- The same bits as the encoder takes them, three bytes at a time. -/
theorem base64Bits_eq_groups (acc : Word) :
    base64Bits acc = (byteLane acc 0 ++ byteLane acc 1 ++ byteLane acc 2) ++
      (byteLane acc 3 ++ byteLane acc 4 ++ byteLane acc 5) ++ (byteLane acc 6 ++ byteLane acc 7 ++ 0x00#8) := by
  rw [base64Bits, append_threeBytes, append_threeBytes]

/-- The four characters of three bytes are those of four successive groups of six bits, wherever the bytes stand. -/
theorem base64Group_eq_map {n s : Nat} {bits : BitVec n} {p0 p1 p2 : Byte} (h : p0 ++ p1 ++ p2 = bits.extractLsb' s 24) :
    base64Group p0 p1 p2 = [18, 12, 6, 0].map fun t => base64Char (bits.extractLsb' (s + t) 6) := by
  unfold base64Group
  rw [h]
  simp only [extractLsb'_extractLsb', Nat.reduceAdd, Nat.reduceLeDiff, List.map_cons, List.map_nil]

/-- The digest is the characters of the eleven groups of six bits that hold bits of the buffer, and one `=`. -/
theorem encBase64_eq_sextets (acc : Word) :
    encBase64 acc =
      ((List.range 11).map fun j => base64Char ((base64Bits acc).extractLsb' (66 - 6 * j) 6)) ++ [0x3D#8] := by
  have h0 : byteLane acc 0 ++ byteLane acc 1 ++ byteLane acc 2 = (base64Bits acc).extractLsb' 48 24 := by
    rw [base64Bits_eq_groups, BitVec.extractLsb'_append_eq_of_le (by decide),
      BitVec.extractLsb'_append_eq_of_le (by decide)]
    exact BitVec.extractLsb'_eq_self.symm
  have h1 : byteLane acc 3 ++ byteLane acc 4 ++ byteLane acc 5 = (base64Bits acc).extractLsb' 24 24 := by
    rw [base64Bits_eq_groups, BitVec.extractLsb'_append_eq_of_le (by decide),
      BitVec.extractLsb'_append_eq_of_add_le (by decide)]
    exact BitVec.extractLsb'_eq_self.symm
  have h2 : byteLane acc 6 ++ byteLane acc 7 ++ 0x00#8 = (base64Bits acc).extractLsb' 0 24 := by
    rw [base64Bits_eq_groups, BitVec.extractLsb'_append_eq_of_add_le (by decide)]
    exact BitVec.extractLsb'_eq_self.symm
  rw [encBase64, base64Group_eq_map h0, base64Group_eq_map h1, base64Group_eq_map h2]
  rfl

theorem encBase64_getD (acc : Word) {j : Nat} (hj : j < 11) :
    (encBase64 acc).getD j 0#8 = base64Alphabet.getD ((base64Bits acc).extractLsb' (66 - 6 * j) 6).toNat 0#8 := by
  rw [encBase64_eq_sextets, List.getD_append _ _ _ _ (by simpa using hj), List.getD_eq_getElem _ _ (by simpa using hj),
    List.getElem_map, List.getElem_range, base64Char_eq_getD]

theorem encBase64_getD_eleven (acc : Word) : (encBase64 acc).getD 11 0#8 = 0x3D#8 := rfl

/-- The last group ends in two bits of padding, so its index is a multiple of four. -/
theorem base64Bits_lastSextet (acc : Word) : ∃ m < 16, ((base64Bits acc).extractLsb' 6 6).toNat = 4 * m := by
  have hpad : (base64Bits acc).toNat % 256 = 0 := by
    simp only [base64Bits, BitVec.toNat_append _ 0x00#8, Nat.shiftLeft_eq, BitVec.toNat_ofNat, Nat.zero_mod,
      Nat.or_zero]
    omega
  refine ⟨(base64Bits acc).toNat / 256 % 16, Nat.mod_lt _ (by decide), ?_⟩
  rw [BitVec.extractLsb'_toNat, Nat.shiftRight_eq_div_pow]
  omega

end Sys2Proof.Machine
end

section
/-! PROOFS. The statements about FIN and its encodings (spec/42_finalize.md rules R110 to R114, R116). -/

namespace Sys2Proof.Machine

/-! ## FIN (R110) -/

theorem finalize_eq (sel : Nibble) (acc : Word) :
    finalize hw sel acc = if sel = 1 then encHex hw acc else if sel = 2 then encBase64 acc else encBuffer hw acc := rfl

/-- A result replaces the one before it. -/
theorem writeOut_writeOut (s : State) (bytes bytes' : List Byte) :
    (s.writeOut bytes).writeOut bytes' = s.writeOut bytes' := rfl

/-- FIN reads `ACC` alone, which it keeps, so that it finds what it found before (R111). -/
theorem exec_fin_writeOut (s : State) (sel : Nibble) :
    exec (.fin sel) (s.writeOut (finalize hw sel s.acc)) = .next (s.writeOut (finalize hw sel s.acc)) := by
  rw [exec_fin, writeOut_writeOut, writeOut_acc]

/-- Settles O26: the row of opcode 4, the canonical word by definition, and the output buffer's law for a digest of at
most sixteen bytes. -/
theorem finWritesTheSelectedDigest : Obligations.FinWritesTheSelectedDigest := by
  refine ⟨fun cmd data h => decode_op4 cmd data (cmdOp_of_row h (by decide)), fun _ => rfl, fun sel s => ?_⟩
  rw [← finalize_eq]
  have hlen : (finalize hw sel s.acc).length ≤ 16 := finalize_length_le hw sel s.acc
  refine ⟨_, exec_fin s sel, fun k hk => ?_, writeOut_outLen_toNat s hlen, hlen, writeOut_acc s _, writeOut_ill s _,
    writeOut_pending s _, writeOut_readLog s _, exec_fin_writeOut s sel⟩
  rw [writeOut_out, fillOut_getElem _ k hk]
  split
  case isTrue hlt => exact List.getD_eq_getElem _ _ hlt
  case isFalse hge => exact List.getD_eq_default _ _ (Nat.le_of_not_lt hge)

/-! ## The selectors (R116) -/

/-- The canonical word of FIN is FIN whatever `DATA` is (R62). -/
theorem decode_finWord (sel : Nibble) (data : Word) :
    decode (0x4000#16 ||| sel.setWidth 16 <<< 8) data = .fin sel := by
  have hop : cmdOp (0x4000#16 ||| sel.setWidth 16 <<< 8) = 4#4 :=
    cmdOp_of_row (m := 0x4000#16) (Laws.EncodesInRow.fin sel rfl) (by decide)
  rw [decode_op4 _ data hop, cmdA_or_operand (by decide)]

/-- Settles O27: `finalize_buffer` gives every selector above 2 and selector 0 the same digest. -/
theorem unrecognisedSelectorFallsBackToBuffer : Obligations.UnrecognisedSelectorFallsBackToBuffer := by
  refine ⟨fun acc => ⟨finalize_buffer (by decide) (by decide) acc, finalize_hex acc, finalize_base64 acc⟩,
    fun sel s hsel => ⟨fun data => ?_, ?_, _, exec_fin s sel, writeOut_ill s _⟩⟩
  · have hd : decode (0x4000 ||| sel.setWidth 16 <<< 8) data = .fin sel := decode_finWord sel data
    rw [hd, Instr.illegalWord]
  · have h1 : sel ≠ 1#4 := by rintro rfl; simp at hsel
    have h2 : sel ≠ 2#4 := by rintro rfl; simp at hsel
    rw [exec_fin, exec_fin, finalize_buffer h1 h2, finalize_buffer (by decide) (by decide)]

/-! ## The encodings (R112 to R114) -/

/-- Settles O28: the lanes make up the value, packing a list of bytes gives its preimage, and `FIN buffer` puts lane `k`
into `OUT[k]`. -/
theorem bufferIsLittleEndianBijection : Obligations.BufferIsLittleEndianBijection := by
  refine ⟨fun acc => ⟨encBuffer_length hw acc, fun k hk => encBuffer_getD hw acc hk⟩, fun bytes hlen => ?_, fun s =>
    ⟨_, exec_fin s 0, ?_⟩⟩
  · have hpack : encBuffer hw (packLanes bytes) = bytes := encBuffer_packLanes hw hlen
    exact ⟨packLanes bytes, hpack, fun acc hacc => encBuffer_injective hw (hacc.trans hpack.symm)⟩
  · have hout : ∀ (k : Nat) (hk : k < 8), (s.writeOut (finalize hw 0 s.acc)).out[k] = byteLane s.acc k := fun k hk => by
      rw [writeOut_out, fillOut_getElem, finalize_buffer (by decide) (by decide), encBuffer_getD hw s.acc hk]
    simp only [hout, Nat.reduceLT]
    exact append_byteLane s.acc

/-- Settles O29: the number of digits is bounded on both sides by the value's powers of 16, and each character is its
digit's. -/
theorem hexIsTheNumericValueUpperCase : Obligations.HexIsTheNumericValueUpperCase := by
  refine ⟨hw_hexPad, fun c acc => ⟨fun hpad => ?_, fun hpad h0 => ?_, fun hpad h0 => ?_, fun j hj => ?_⟩⟩
  · simp [encHex_length, hpad]
  · simp [encHex_length, hpad, h0, hexWidth_zero]
  · have hn : (encHex c acc).length = hexWidth acc := by simp [encHex_length, hpad]
    rw [hn]
    exact ⟨hexWidth_pos acc, hexWidth_le acc, pow_hexWidth_le h0, lt_pow_hexWidth acc⟩
  · exact (encHex_getD c acc hj).trans (hexChar_eq _)

/-- Settles O30: the encoder's characters are those of the groups of six bits, the last of which ends in padding. -/
theorem base64IsTheStandardEncoding : Obligations.Base64IsTheStandardEncoding := fun acc => by
  obtain ⟨m, hm, hlast⟩ := base64Bits_lastSextet acc
  refine ⟨encBase64_length acc, encBase64_getD_eleven acc, fun j hj => encBase64_getD acc hj, m, hm, ?_⟩
  rw [← hlast]
  exact encBase64_getD acc (j := 10) (by decide)

/-! ## FIN among other inputs (R111) -/

theorem runPort_fin (sel : Nibble) (s : State) :
    runPort [.command (0x4000#16 ||| sel.setWidth 16 <<< 8) 0] s =
      .next { s.writeOut (finalize hw sel s.acc) with pending := [] } :=
  runPort_singleton (by rw [present_command, decode_finWord, exec_fin])

/-- An input that is no INGB, INGW, CLEAR or reset keeps `ACC` (R21). -/
theorem present_keeps_acc {e : PortEvent} {s t : State} (he : isReset e = false)
    (hcmd : ∀ cmd data, e = .command cmd data →
      decode cmd data ≠ .clear ∧ (∀ b, decode cmd data ≠ .ingb b) ∧ ∀ n d, decode cmd data ≠ .ingw n d)
    (h : present e s = .next t) : t.acc = s.acc := by
  cases e with
  | command cmd data =>
    obtain ⟨hclear, hingb, hingw⟩ := hcmd cmd data rfl
    rcases exec_keeps_acc h with ⟨b, hd⟩ | ⟨n, d, hd⟩ | hd | hkept
    · exact absurd hd (hingb b)
    · exact absurd hd (hingw n d)
    · exact absurd hd hclear
    · exact hkept
  | read addr => cases h; rfl
  | reset | powerCycle => cases he

/-- Settles O34: what a run makes of `ACC` is a fold in which FIN has no part, and the second FIN finds the first one's
`ACC`. -/
theorem finalizeIsReadOnlyAndIdempotent : Obligations.FinalizeIsReadOnlyAndIdempotent := by
  refine ⟨fun es s => ?_, fun sel es s t u hes ht hu => ?_⟩
  · obtain ⟨t, ht, hacct⟩ := runPort_acc es s
    obtain ⟨u, hu, haccu⟩ := runPort_acc (es.filter fun e => !isFin e) s
    exact ⟨t, u, ht, hu, by rw [hacct, haccu, foldl_accAfter_filter_isFin]⟩
  · obtain ⟨v, hv, hacc⟩ := runPort_keeps (obs := State.acc) (fun _ _ => rfl)
      (fun e he _ _ h => present_keeps_acc (hes e he).1 (hes e he).2 h) t
    rw [runPort_append hv] at hu
    cases (runPort_fin sel s).symm.trans ht
    cases (runPort_fin sel v).symm.trans hu
    simp [hacc]

end Sys2Proof.Machine
end

section
/-! PROOFS. The statements about NOP, CLEAR and the reserved opcodes (spec/43_control.md rules R130 to R132). -/

namespace Sys2Proof.Machine

/-! ## NOP (R130) -/

/-- Settles O35: the row of opcode 0, the canonical word by definition, and the law of NOP. -/
theorem nopChangesNothing : Obligations.NopChangesNothing :=
  ⟨fun cmd data h => decode_op0 cmd data (cmdOp_of_row h (by decide)), rfl, exec_nop⟩

/-! ## CLEAR (R131) -/

/-- A cleared accumulator has eight zero bytes. -/
theorem encBuffer_zero (c : Config) : encBuffer c 0#64 = List.replicate 8 0#8 := by
  rw [encBuffer, Config.accWidth_eq]
  decide

theorem fillOut_replicate_zero (n : Nat) : fillOut (List.replicate n 0#8) = Vector.replicate 16 0#8 := by
  apply Vector.ext
  intro k hk
  rw [fillOut_getElem, List.getD_eq_getElem?_getD, List.getElem?_getD_replicate_default_eq, Vector.getElem_replicate]

/-- The count of a well-formed INGW is legal (R63), so `ACC` is the ingest of what the command carries unless that is CLEAR. -/
theorem exec_wf_acc {i : Instr} (s : State) (hwf : i.wf = true) (hne : i ≠ .clear) :
    ∃ t, exec i s = .next t ∧ t.acc = ingest hw s.acc (ingestedBytes i) := by
  obtain ⟨t, ht⟩ := exec_completes i s
  have hcount : ∀ n data, i = .ingw n data → n.toNat ≤ 8 := by
    rintro n data rfl
    exact (wf_ingw data n).1 hwf
  exact ⟨t, ht, (exec_acc hcount ht).trans (if_neg hne)⟩

/-- Settles O36: the row of opcode 1 and the law of CLEAR, the buffer digest of zero, and `exec_wf_acc` for every other
command. -/
theorem clearZeroesOnlyTheAccumulator : Obligations.ClearZeroesOnlyTheAccumulator := by
  refine ⟨fun cmd data h => decode_op1 cmd data (cmdOp_of_row h (by decide)), rfl, exec_clear,
    fun s => ⟨_, exec_fin _ 0, ?_⟩, fun i s => exec_wf_acc s⟩
  have hdigest : finalize hw 0 0 = List.replicate 8 0#8 :=
    (finalize_buffer (by decide) (by decide) 0).trans (encBuffer_zero hw)
  rw [writeOut_out, writeOut_outLen, hdigest, List.length_replicate]
  exact ⟨fillOut_replicate_zero 8, rfl⟩

/-! ## Reserved opcodes (R132) -/

/-- Settles O37: a reserved word is illegal, and all illegal commands have one law. -/
theorem reservedOpcodesSetIllOnly : Obligations.ReservedOpcodesSetIllOnly := by
  refine ⟨fun cmd data s hop => ?_, fun cmd s => ⟨exec_illegalWord s rfl, exec_illegalWord s rfl⟩⟩
  have hword : (decode cmd data).illegalWord = some cmd := by
    rw [decode_reserved cmd data hop, decodeReserved_illegalWord]
  exact ⟨hword, exec_illegalWord s (Option.isSome_of_eq_some hword)⟩

end Sys2Proof.Machine
end

section
/-! PROOFS. The statement about `IllegalCommand` (spec/60_exceptions.md rule R141). -/

namespace Sys2Proof

/-- Both causes of `IllegalCommand` keep the word, and no other word is illegal (R66, R141). -/
theorem decode_illegalWord (cmd : CmdWord) (data : Word) :
    (decode cmd data).illegalWord =
      if 6 ≤ (cmdOp cmd).toNat ∨ (cmdOp cmd = 3#4 ∧ 8 < (cmdA cmd).toNat) then some cmd else none := by
  split
  case isTrue hcause =>
    rcases hcause with hop | ⟨hop, hn⟩
    · rw [decode_reserved cmd data hop, decodeReserved_illegalWord]
    · rw [decode_op3_illegal cmd data hop hn, decodeIllegalIngw_illegalWord]
  case isFalse hcause => exact Option.not_isSome_iff_eq_none.1 (mt (decode_illegal_iff cmd data).1 hcause)

end Sys2Proof

namespace Sys2Proof.Machine

/-- A command at the port raises the bit where it is illegal and else leaves it (R141). -/
theorem exec_decode_ill {cmd : CmdWord} {data : Word} {s t : State} (h : exec (decode cmd data) s = .next t) :
    t.ill = (s.ill || (decode cmd data).illegalWord.isSome) :=
  exec_ill (fun _ _ => decode_ingw_count_le) h

/-- Settles O39: the causes by the decoder's law for illegal words, the effect by the one law of all illegal commands, and
the bit by what each kind of step leaves of it. -/
theorem illegalCommandSetsTheStickyBit : Obligations.IllegalCommandSetsTheStickyBit := by
  refine ⟨decode_illegalWord, fun cmd data rest s hword hp => ?_, fun cmd data s t hlegal hexec => ?_,
    fun s t hs hstep ht => ?_, fun s => ⟨_, exec_clear s, setAcc_ill s _⟩⟩
  · rw [step_of_pending hp, present_command, exec_illegalWord _ (Option.isSome_of_eq_some hword)]
  · rw [exec_decode_ill hexec, hlegal, Option.isSome_none, Bool.or_false]
  · rcases step_cases hstep with ⟨_, rfl⟩ | ⟨cmd, data, rest, _, hexec⟩ | ⟨addr, rest, _, rfl⟩ | ⟨rest, hp, _⟩
    · cases hs.symm.trans ht
    · have hset : t.ill = true := by rw [exec_decode_ill hexec, hs, Bool.true_or]
      cases hset.symm.trans ht
    · cases hs.symm.trans ht
    · exact ⟨rest, hp⟩

end Sys2Proof.Machine
end

section
/-! PROOFS. The statement about reset (spec/70_reset_and_hazards.md rule R160). -/

namespace Sys2Proof.Machine

/-- Settles O41: the reset values field by field, and a reset step ends in `resetBlock`, which has the same. -/
theorem resetGivesEveryFieldItsValue : Obligations.ResetGivesEveryFieldItsValue := by
  have hzero : ∀ (k : Nat) (hk : k < 16), (Vector.replicate 16 0#8)[k] = 0x00 :=
    fun _ hk => Vector.getElem_replicate hk
  refine ⟨⟨reset_acc, hzero, reset_outLen, reset_ill⟩, fun s rest hp => ?_⟩
  have hstep : step s = .next { s with pending := rest }.resetBlock := by
    rw [step_of_pending hp, present_reset]
  exact ⟨_, hstep, resetBlock_acc _, hzero, resetBlock_outLen _, resetBlock_ill _⟩

end Sys2Proof.Machine
end

section
/-! PROOFS. Encoding and decoding are inverse to each other, and what an assembler statement stands for (spec/30_encoding.md
rules R61 to R66, R69 to R71). -/

namespace Sys2Proof

open Machine

/-! ## Decoding an encoded command -/

/-- Settles O4, which is `decode_encode`. -/
theorem decodeOfEncodeIsIdentity : Obligations.DecodeOfEncodeIsIdentity := fun _ hwf => decode_encode hwf

/-- Settles O6, by evaluating the decoder on each word. -/
theorem workedEncodingsDecode : Obligations.WorkedEncodingsDecode := by
  refine ⟨?_, ?_, ?_, ?_, ?_, ?_, ?_, ?_, ?_, ?_, ?_, ?_, ?_⟩ <;> decide

/-! ## Encoding a decoded word -/

section
variable (cmd : CmdWord) (data : Word)

/-- A mask over a field keeps that field in its place and nothing else (R61). -/
theorem and_fieldMask (s n : Nat) :
    cmd &&& (BitVec.allOnes n).setWidth 16 <<< s = (cmd.extractLsb' s n).setWidth 16 <<< s := by
  ext i hi
  by_cases hs : i < s
  · simp [hs]
  · have hsum : s + (i - s) = i := by omega
    simp [hs, hsum, hi, Bool.and_comm]

theorem and_opMask : cmd &&& 0xF000#16 = (cmdOp cmd).setWidth 16 <<< 12 := and_fieldMask cmd 12 4

/-- The opcode and the operand `A`, each in its field, are the word without its low byte. -/
theorem op_or_cmdA : (cmdOp cmd).setWidth 16 <<< 12 ||| (cmdA cmd).setWidth 16 <<< 8 = cmd &&& 0xFF00#16 := by
  have ha : cmd &&& 0x0F00#16 = (cmdA cmd).setWidth 16 <<< 8 := and_fieldMask cmd 8 4
  rw [← and_opMask, ← ha, ← BitVec.and_or_distrib_left]
  rfl

/-- The opcode and the operand `B`, each in its field, are the word without bits 11:8. -/
theorem op_or_cmdB : (cmdOp cmd).setWidth 16 <<< 12 ||| (cmdB cmd).setWidth 16 = cmd &&& 0xF0FF#16 := by
  have hb : cmd &&& 0x00FF#16 = (cmdB cmd).setWidth 16 := (and_fieldMask cmd 0 8).trans (BitVec.shiftLeft_zero _)
  rw [← and_opMask, ← hb, ← BitVec.and_or_distrib_left]
  rfl

/-- An INGW word with an illegal count lies in the row its count selects (R66). -/
theorem decodeIllegalIngw_wf (hop : cmdOp cmd = 3#4) (hn : 8 < (cmdA cmd).toNat) :
    (decodeIllegalIngw cmd).wf = true := by
  obtain ⟨hlo, hhi⟩ := (illegalIngw_iff_range cmd).1 ⟨hop, hn⟩
  have ha := cmdA_toNat cmd
  unfold decodeIllegalIngw
  split
  case isTrue h9 =>
    have h9 : (cmdA cmd).toNat = 9 := congrArg BitVec.toNat h9
    exact beq_iff_eq.2 ((and_highMask_eq_iff cmd 8 (by decide) (by decide)).2 (show _ = 57 by omega))
  case isFalse h9 =>
    have h9 : (cmdA cmd).toNat ≠ 9 := fun h => h9 (BitVec.eq_of_toNat_eq h)
    split
    case isTrue h11 =>
      have h11 : (cmdA cmd).toNat ≤ 11 := h11
      exact beq_iff_eq.2 ((and_highMask_eq_iff cmd 9 (by decide) (by decide)).2 (show _ = 29 by omega))
    case isFalse h11 =>
      have h11 : ¬ (cmdA cmd).toNat ≤ 11 := h11
      exact beq_iff_eq.2 ((and_highMask_eq_iff cmd 10 (by decide) (by decide)).2 (show _ = 15 by omega))

theorem decodeReserved_wf (hop : 6 ≤ (cmdOp cmd).toNat) : (decodeReserved cmd).wf = true := by
  unfold decodeReserved
  split
  case isTrue h7 => exact beq_iff_eq.2 ((row_reservedOp6to7_iff cmd).2 ⟨hop, h7⟩)
  case isFalse h7 => exact beq_iff_eq.2 ((row_reservedOp8toF_iff cmd).2 (Nat.lt_of_not_le h7))

/-- Every word decodes to a command of the encoding (R64, R65). -/
theorem decode_wf : (decode cmd data).wf = true := by
  rcases decode_cases cmd data with ⟨_, hd⟩ | ⟨_, hd⟩ | ⟨_, hd⟩ | ⟨_, hn, hd⟩ | ⟨hop, hn, hd⟩ | ⟨_, hd⟩ | ⟨_, hd⟩ |
    ⟨hop, hd⟩
  · rw [hd, Instr.wf]
  · rw [hd, Instr.wf]
  · rw [hd, Instr.wf]
  · rw [hd, wf_ingw]
    exact hn
  · rw [hd, decodeIllegalIngw_wf cmd hop hn]
  · rw [hd, Instr.wf]
  · rw [hd, Instr.wf]
  · rw [hd, decodeReserved_wf cmd hop]

variable {cmd data} in
/-- Where a word is illegal, the operand of its row is the word itself (R65). -/
theorem decode_illegalWord_eq {i : Instr} {w : CmdWord} (h : decode cmd data = i) (hw : i.illegalWord = some w) :
    w = cmd := by
  rw [← h, decode_illegalWord] at hw
  exact (Option.some.inj (Option.ite_none_right_eq_some.1 hw).2).symm

end

/-- Settles O5: the bits of a canonical word are the opcode's field and the operand's, and an illegal command keeps its
word. -/
theorem encodeOfDecodeClearsUnreadBits : Obligations.EncodeOfDecodeClearsUnreadBits := by
  refine fun cmd data => ⟨decode_wf cmd data, ?_⟩
  cases hd : decode cmd data with
  | nop =>
    have hop : cmdOp cmd = 0#4 := by simpa using decode_legal_cases hd rfl
    exact .trans (by rw [hop]; rfl) (and_opMask cmd).symm
  | clear =>
    have hop : cmdOp cmd = 1#4 := by simpa using decode_legal_cases hd rfl
    exact .trans (by rw [hop]; rfl) (and_opMask cmd).symm
  | ingb b =>
    obtain ⟨hop, rfl⟩ : cmdOp cmd = 2#4 ∧ b = cmdB cmd := by simpa using decode_legal_cases hd rfl
    exact .trans (by rw [hop]; rfl) (op_or_cmdB cmd)
  | ingw n d =>
    obtain ⟨hop, _, rfl, _⟩ : cmdOp cmd = 3#4 ∧ (cmdA cmd).toNat ≤ 8 ∧ n = cmdA cmd ∧ d = data := by
      simpa using decode_legal_cases hd rfl
    exact .trans (by rw [hop]; rfl) (op_or_cmdA cmd)
  | fin sel =>
    obtain ⟨hop, rfl⟩ : cmdOp cmd = 4#4 ∧ sel = cmdA cmd := by simpa using decode_legal_cases hd rfl
    exact .trans (by rw [hop]; rfl) (op_or_cmdA cmd)
  | tblrd idx =>
    obtain ⟨hop, rfl⟩ : cmdOp cmd = 5#4 ∧ idx = cmdB cmd := by simpa using decode_legal_cases hd rfl
    exact .trans (by rw [hop]; rfl) (op_or_cmdB cmd)
  | illegalIngwN9 w | illegalIngwN10to11 w | illegalIngwN12to15 w | reservedOp6to7 w | reservedOp8toF w =>
    exact decode_illegalWord_eq hd rfl

end Sys2Proof
end

section
/-! PROOFS. What each assembler statement stands for, and the expansion of `ING` (spec/30_encoding.md rules R69, R70). -/

namespace Sys2Proof.Machine

/-! ## The groups of `ING` (R70) -/

/-- A number within its field stands in the word as it is. -/
theorem setWidth_ofNat_of_lt {n x : Nat} (hx : x < 2 ^ n) : (BitVec.ofNat n x).setWidth 16 = BitVec.ofNat 16 x := by
  apply BitVec.eq_of_toNat_eq
  rw [BitVec.toNat_setWidth, BitVec.toNat_ofNat, BitVec.toNat_ofNat, Nat.mod_eq_of_lt hx]

/-- The INGW command over the bytes of one group. -/
def groupCommand (group : List Byte) : Instr := .ingw (BitVec.ofNat 4 group.length) (packLanes group)

theorem groupCommand_wf {group : List Byte} (h : group.length ≤ 8) : (groupCommand group).wf = true := by
  rw [groupCommand, wf_ingw, BitVec.toNat_ofNat]
  omega

theorem encode_groupCommand {group : List Byte} (h : group.length ≤ 8) :
    encode (groupCommand group) = (0x3000#16 ||| BitVec.ofNat 16 group.length <<< 8, packLanes group) := by
  rw [groupCommand, encode, setWidth_ofNat_of_lt (by omega)]

theorem ingGroups_nil (k : Nat) : ingGroups k [] = [] := by
  cases k <;> rfl

theorem ingGroups_succ (k : Nat) {bytes : List Byte} (hb : bytes ≠ []) :
    ingGroups (k + 1) bytes = encode (groupCommand (bytes.take 8)) :: ingGroups k (bytes.drop 8) := by
  rw [ingGroups, if_neg hb, groupCommand, List.length_take, Nat.min_comm]

/-- One bound on the number of groups is as good as another, where both suffice. -/
theorem ingGroups_eq_of_length_le {k m : Nat} {bytes : List Byte} (hk : bytes.length ≤ k) (hm : bytes.length ≤ m) :
    ingGroups k bytes = ingGroups m bytes := by
  induction k generalizing m bytes with
  | zero => rw [List.length_eq_zero_iff.1 (Nat.le_zero.1 hk), ingGroups_nil, ingGroups_nil]
  | succ k ih =>
    rcases eq_or_ne bytes [] with rfl | hb
    · rw [ingGroups_nil, ingGroups_nil]
    · have hpos := List.length_pos_iff.2 hb
      have hdrop := List.length_drop (i := 8) (l := bytes)
      obtain ⟨m, rfl⟩ := Nat.exists_eq_add_one.2 (hpos.trans_le hm)
      rw [ingGroups_succ k hb, ingGroups_succ m hb, ih (m := m) (by omega) (by omega)]

/-- The expansion is one command for the first eight bytes, then the expansion of the rest. -/
theorem ingExpansion_of_ne_nil {bytes : List Byte} (hb : bytes ≠ []) :
    ingExpansion bytes = encode (groupCommand (bytes.take 8)) :: ingExpansion (bytes.drop 8) := by
  have hpos := List.length_pos_iff.2 hb
  have hdrop := List.length_drop (i := 8) (l := bytes)
  rw [ingExpansion, ingGroups_eq_of_length_le le_rfl (Nat.le_succ _), ingGroups_succ _ hb, ingExpansion,
    ingGroups_eq_of_length_le (by omega) le_rfl]

/-- What holds of no byte, and of a list where it holds of what follows the first eight, holds of every list. -/
theorem group_induction {motive : List Byte → Prop} (nil : motive [])
    (group : ∀ bytes, bytes ≠ [] → motive (bytes.drop 8) → motive bytes) (bytes : List Byte) : motive bytes := by
  induction hn : bytes.length using Nat.strong_induction_on generalizing bytes with
  | h n ih =>
    rcases eq_or_ne bytes [] with rfl | hb
    · exact nil
    · have hpos := List.length_pos_iff.2 hb
      exact group bytes hb (ih _ (by rw [List.length_drop]; omega) _ rfl)

theorem mem_ingExpansion {p : CmdWord × Word} {bytes : List Byte} (hp : p ∈ ingExpansion bytes) :
    ∃ group, group.length ≤ 8 ∧ p = encode (groupCommand group) := by
  induction bytes using group_induction with
  | nil => cases hp
  | group bytes hb ih =>
    rw [ingExpansion_of_ne_nil hb, List.mem_cons] at hp
    rcases hp with rfl | hp
    · exact ⟨_, List.length_take_le 8 bytes, rfl⟩
    · exact ih hp

/-- The whole groups, and one for what remains. -/
theorem ingExpansion_length (bytes : List Byte) : (ingExpansion bytes).length = (bytes.length + 7) / 8 := by
  induction bytes using group_induction with
  | nil => rfl
  | group bytes hb ih =>
    have hpos := List.length_pos_iff.2 hb
    rw [ingExpansion_of_ne_nil hb, List.length_cons, ih, List.length_drop]
    omega

/-- The bytes of group `g`. -/
def byteGroup (bytes : List Byte) (g : Nat) : List Byte := (bytes.drop (8 * g)).take 8

theorem byteGroup_length (bytes : List Byte) (g : Nat) :
    (byteGroup bytes g).length = min 8 (bytes.length - 8 * g) := by
  rw [byteGroup, List.length_take, List.length_drop]

theorem byteGroup_length_le (bytes : List Byte) (g : Nat) : (byteGroup bytes g).length ≤ 8 := List.length_take_le 8 _

theorem byteGroup_getD (bytes : List Byte) (g : Nat) {j : Nat} (hj : j < 8) :
    (byteGroup bytes g).getD j 0#8 = bytes.getD (8 * g + j) 0#8 := by
  simp [byteGroup, hj]

theorem ingExpansion_getElem? {bytes : List Byte} {g : Nat} (hg : g < (ingExpansion bytes).length) :
    (ingExpansion bytes)[g]? = some (encode (groupCommand (byteGroup bytes g))) := by
  induction bytes using group_induction generalizing g with
  | nil => cases hg
  | group bytes hb ih =>
    rw [ingExpansion_of_ne_nil hb] at hg ⊢
    cases g with
    | zero => rfl
    | succ g =>
      have hdrop : byteGroup (bytes.drop 8) g = byteGroup bytes (g + 1) := by
        rw [byteGroup, List.drop_drop, byteGroup, Nat.mul_succ, Nat.add_comm]
      rw [List.getElem?_cons_succ, ih (Nat.lt_of_succ_lt_succ hg), hdrop]

/-! ## The effect of a group and of the expansion -/

/-- Packing at most eight bytes and taking their lanes gives them back. -/
theorem byteLanes_packLanes {bytes : List Byte} (h : bytes.length ≤ 8) :
    byteLanes bytes.length (packLanes bytes) = bytes := by
  apply List.ext_getElem (byteLanes_length _ _)
  intro k hk hk'
  rw [← List.getD_eq_getElem _ 0#8, ← List.getD_eq_getElem _ 0#8, byteLanes_getD _ _ _ hk',
    byteLane_packLanes _ (by omega)]

theorem exec_groupCommand {group : List Byte} (h : group.length ≤ 8) (s : State) :
    exec (groupCommand group) s = .next (s.setAcc (ingest hw s.acc group)) := by
  have hn : (BitVec.ofNat 4 group.length).toNat = group.length := by
    rw [BitVec.toNat_ofNat]
    omega
  rw [groupCommand, exec_ingw_legal _ _ _ (by omega), hn, byteLanes_packLanes h]

/-- Ingesting in two parts is ingesting the whole, because the working form goes on where it stood (R99). -/
theorem ingest_append (c : Config) (acc : Word) (xs ys : List Byte) :
    ingest c (ingest c acc xs) ys = ingest c acc (xs ++ ys) := by
  rw [ingest, flipWord_ingest, ingest, List.foldl_append]

/-- Settles O19, which is `ingest_append`. -/
theorem chunkBoundaryIndependence : Obligations.ChunkBoundaryIndependence := ingest_append

/-- Presenting the expansion ingests the bytes, group by group. -/
theorem runPort_ingExpansion (bytes : List Byte) (s : State) :
    runPort ((ingExpansion bytes).map fun p => .command p.1 p.2) s =
      .next { s with acc := ingest hw s.acc bytes, pending := [] } := by
  induction bytes using group_induction generalizing s with
  | nil =>
    rw [ingest_nil]
    rfl
  | group bytes hb ih =>
    have hlen : (bytes.take 8).length ≤ 8 := List.length_take_le 8 bytes
    have hfirst : present (.command (encode (groupCommand (bytes.take 8))).1 (encode (groupCommand (bytes.take 8))).2) s =
        .next (s.setAcc (ingest hw s.acc (bytes.take 8))) := by
      rw [present_command, decode_encode (groupCommand_wf hlen), exec_groupCommand hlen]
    rw [ingExpansion_of_ne_nil hb, List.map_cons, runPort_cons_of_present hfirst, ih, setAcc_acc, ingest_append,
      List.take_append_drop]
    rfl

/-! ## The words of the statements (R69) -/

theorem assemble_ingb (b : Nat) :
    assemble (.ingb b) = if b ≤ 255 then some [(0x2000#16 ||| BitVec.ofNat 16 b, 0)] else none :=
  ite_congr (propext Nat.lt_succ_iff) (fun hb => by rw [encode, setWidth_ofNat_of_lt (by omega)]) fun _ => rfl

theorem assemble_ingw (n d : Nat) :
    assemble (.ingw n d) =
      if n ≤ 8 ∧ d < 2 ^ 64 then some [(0x3000#16 ||| BitVec.ofNat 16 n <<< 8, BitVec.ofNat 64 d)] else none :=
  ite_congr rfl (fun h => by rw [encode, setWidth_ofNat_of_lt (by omega)]) fun _ => rfl

theorem assemble_fin (n : Nat) :
    assemble (.fin n) = if n ≤ 15 then some [(0x4000#16 ||| BitVec.ofNat 16 n <<< 8, 0)] else none :=
  ite_congr (propext Nat.lt_succ_iff) (fun hn => by rw [encode, setWidth_ofNat_of_lt (by omega)]) fun _ => rfl

theorem assemble_tblrd (i : Nat) :
    assemble (.tblrd i) = if i ≤ 255 then some [(0x5000#16 ||| BitVec.ofNat 16 i, 0)] else none :=
  ite_congr (propext Nat.lt_succ_iff) (fun hi => by rw [encode, setWidth_ofNat_of_lt (by omega)]) fun _ => rfl

theorem assemble_ing (bytes : List Nat) :
    assemble (.ing bytes) = if ∀ b ∈ bytes, b ≤ 255 then some (ingExpansion (bytes.map (BitVec.ofNat 8))) else none :=
  ite_congr (by simp [Nat.lt_succ_iff]) (fun _ => rfl) fun _ => rfl

theorem decode_encode_legal {i : Instr} (hwf : i.wf = true) (hi : i.illegalWord = none) :
    (decode (encode i).1 (encode i).2).illegalWord = none := by
  rw [decode_encode hwf, hi]

/-- The range checks of R69 let no illegal command through. -/
theorem assemble_legal {a : AsmStatement} {out : List (CmdWord × Word)} (h : assemble a = some out)
    {p : CmdWord × Word} (hp : p ∈ out) : (decode p.1 p.2).illegalWord = none := by
  cases a with
  | nop | clear | finNamed sel =>
    cases h
    cases List.mem_singleton.1 hp
    exact decode_encode_legal rfl rfl
  | ingb x | fin x | tblrd x =>
    obtain ⟨_, ⟨⟩⟩ := Option.ite_none_right_eq_some.1 h
    cases List.mem_singleton.1 hp
    exact decode_encode_legal rfl rfl
  | ingw n d =>
    obtain ⟨⟨hn, _⟩, ⟨⟩⟩ := Option.ite_none_right_eq_some.1 h
    cases List.mem_singleton.1 hp
    refine decode_encode_legal ((wf_ingw _ _).2 ?_) rfl
    rw [BitVec.toNat_ofNat]
    exact (Nat.mod_le _ _).trans hn
  | ing bytes =>
    obtain ⟨_, ⟨⟩⟩ := Option.ite_none_right_eq_some.1 h
    obtain ⟨group, hlen, rfl⟩ := mem_ingExpansion hp
    exact decode_encode_legal (groupCommand_wf hlen) rfl

/-- Settles O7: the word of each statement within its range, and `assemble_legal`. -/
theorem assemblerRejectsRangesAndEmitsNoIllegalCommand : Obligations.AssemblerRejectsRangesAndEmitsNoIllegalCommand :=
  ⟨rfl, rfl, assemble_ingb, assemble_ingw, rfl, rfl, rfl, assemble_fin, assemble_tblrd, assemble_ing,
    fun _ _ h _ hp => assemble_legal h hp⟩

/-- Settles O8: the number of groups, the word and the lanes of each, and the effect group by group. -/
theorem ingExpansionIngestsItsBytes : Obligations.IngExpansionIngestsItsBytes := by
  refine fun bytes => ⟨?_, fun g cmd data hg => ?_, runPort_ingExpansion bytes⟩
  · rw [ingExpansion_length]
    split <;> omega
  · obtain ⟨hlt, _⟩ := List.getElem?_eq_some_iff.1 hg
    have hword := hg.symm.trans (ingExpansion_getElem? hlt)
    rw [encode_groupCommand (byteGroup_length_le bytes g)] at hword
    obtain ⟨rfl, rfl⟩ := Prod.mk.inj (Option.some.inj hword)
    rw [ingExpansion_length] at hlt
    have hlen : (byteGroup bytes g).length = if g < bytes.length / 8 then 8 else bytes.length % 8 := by
      rw [byteGroup_length]
      split <;> omega
    exact ⟨by rw [hlen]; rfl, fun j hj => (byteLane_packLanes _ hj).trans (byteGroup_getD bytes g hj)⟩

end Sys2Proof.Machine
end

section
/-! PROOFS. The byte step as bit steps: linearity of the table, the catalogued CRC, and what an ingest never loses
(spec/40_table.md rules R81, R83, spec/41_ingest.md rules R90 to R103). -/

namespace Sys2Proof.Machine

/-! ## The bit step (R81) -/

theorem xor_xor_cancel_both (a b c : Word) : (a ^^^ c) ^^^ (b ^^^ c) = a ^^^ b := by
  have hswap : (a ^^^ c) ^^^ (b ^^^ c) = a ^^^ b ^^^ (c ^^^ c) := by ac_rfl
  rw [hswap, BitVec.xor_self, BitVec.xor_zero]

section
variable (poly : Word)

/-- `POLY` goes in where exactly one of the two bits shifted out is one. -/
theorem reduceBit_xor (v w : Word) : reduceBit poly (v ^^^ w) = reduceBit poly v ^^^ reduceBit poly w := by
  simp only [reduceBit, BitVec.getLsbD_xor, BitVec.ushiftRight_xor_distrib]
  cases v.getLsbD 0 <;> cases w.getLsbD 0
  case false.false => rfl
  case false.true => exact BitVec.xor_assoc _ _ _
  case true.false => simp only [Bool.xor_false, if_true, Bool.false_eq_true, if_false]; ac_rfl
  case true.true => exact (xor_xor_cancel_both _ _ poly).symm

theorem iterate_reduceBit_xor (n : Nat) (v w : Word) :
    (reduceBit poly)^[n] (v ^^^ w) = (reduceBit poly)^[n] v ^^^ (reduceBit poly)^[n] w := by
  induction n generalizing v w with
  | zero => rfl
  | succ n ih => simp only [Function.iterate_succ_apply, reduceBit_xor, ih]

/-- Where the bit shifted out is zero, the division only shifts. -/
theorem reduceBit_of_low_zero {v : Word} (h : v.getLsbD 0 = false) : reduceBit poly v = v >>> 1 := by
  rw [reduceBit, h, if_neg Bool.false_ne_true]

theorem iterate_reduceBit_of_low_zero {n : Nat} {v : Word} (h : ∀ k < n, v.getLsbD k = false) :
    (reduceBit poly)^[n] v = v >>> n := by
  induction n with
  | zero => rw [Function.iterate_zero_apply, BitVec.ushiftRight_zero]
  | succ n ih =>
    have hbit : (v >>> n).getLsbD 0 = false := by simpa using h n (Nat.lt_succ_self n)
    rw [Function.iterate_succ_apply', ih fun k hk => h k (Nat.lt_succ_of_lt hk), reduceBit_of_low_zero poly hbit,
      BitVec.shiftRight_add]

end

/-- The shift leaves the top bit free, so there `POLY` shows what was shifted out. -/
theorem reduceBit_getLsbD_top (v : Word) : (reduceBit hw.poly v).getLsbD 63 = v.getLsbD 0 := by
  have htop : (v >>> 1).getLsbD 63 = false := by simp
  have hpoly : hw.poly.getLsbD 63 = true := by decide
  rw [reduceBit]
  split
  case isTrue h => rw [BitVec.getLsbD_xor, htop, hpoly, h]; rfl
  case isFalse h => rw [htop, Bool.eq_false_iff.2 h]

theorem eq_of_ushiftRight_one_eq {v w : Word} (h : v >>> 1 = w >>> 1) (h0 : v.getLsbD 0 = w.getLsbD 0) : v = w := by
  apply BitVec.eq_of_getLsbD_eq
  intro i _
  cases i with
  | zero => exact h0
  | succ i => simpa [Nat.add_comm] using congrArg (BitVec.getLsbD · i) h

theorem reduceBit_injective : Function.Injective (reduceBit hw.poly) := by
  intro v w h
  have h0 : v.getLsbD 0 = w.getLsbD 0 := by rw [← reduceBit_getLsbD_top, h, reduceBit_getLsbD_top]
  refine eq_of_ushiftRight_one_eq ?_ h0
  rw [reduceBit, reduceBit, h0] at h
  split at h
  · exact (BitVec.xor_left_inj _).1 h
  · exact h

/-! ## The table (R83) -/

theorem romRead_xor (a b : Byte) : romRead hw (a ^^^ b) = romRead hw a ^^^ romRead hw b := by
  simp only [romRead_eq_gen, gen, reduceByte, BitVec.setWidth_xor, iterate_reduceBit_xor]

/-- Halving an even index is one more bit step on its entry. -/
theorem romRead_ushiftRight_one {i : Byte} (h : i.getLsbD 0 = false) :
    romRead hw (i >>> 1) = reduceBit hw.poly (romRead hw i) := by
  have hstep : (i >>> 1).setWidth 64 = reduceBit hw.poly (i.setWidth 64) := by
    rw [reduceBit_of_low_zero hw.poly (by simpa using h), BitVec.setWidth_ushiftRight (by decide)]
  rw [romRead_eq_gen, romRead_eq_gen, gen, gen, reduceByte, reduceByte, hstep, ← Function.iterate_succ_apply,
    Function.iterate_succ_apply']

theorem romRead_zero : romRead hw 0#8 = 0#64 := by decide
theorem romRead_0x80 : romRead hw 0x80#8 = hw.poly := by decide

/-- A byte shifted as a number and taken as a byte is the byte shifted. -/
theorem natCast_shiftRight (b : Byte) (k : Nat) : ((b.toNat >>> k : Nat) : Byte) = b >>> k := by
  rw [← BitVec.toNat_ushiftRight]
  exact (BitVec.ofNat_toNat 8 _).trans (BitVec.setWidth_eq _)

/-- Settles O10: two entries by look-up, the rest from the linearity of the bit step. -/
theorem romIsLinear : Obligations.RomIsLinear := by
  refine ⟨romRead_zero, romRead_0x80, romRead_xor, fun k hk1 hk7 => ?_⟩
  have heven : (0x80#8 >>> (k - 1)).getLsbD 0 = false := by interval_cases k <;> decide
  have hk : 0x80#8 >>> k = 0x80#8 >>> (k - 1) >>> 1 := by rw [← BitVec.shiftRight_add, Nat.sub_add_cancel hk1]
  have hhalf := (congrArg (romRead hw) hk).trans (romRead_ushiftRight_one heven)
  rw [← natCast_shiftRight, ← natCast_shiftRight] at hhalf
  exact hhalf

/-! ## The byte step (R93, R96) -/

theorem ushiftRight_shiftLeft_ushiftRight (w : Word) (n : Nat) : w >>> n <<< n >>> n = w >>> n := by
  ext i hi
  rcases Nat.lt_or_ge (n + i) 64 with h64 | h64
  · simp [h64]
  · simp [BitVec.getLsbD_of_ge w (n + i) h64]

theorem eq_lowByte_xor_high (v : Word) : v = (v.extractLsb' 0 8).setWidth 64 ^^^ v >>> 8 <<< 8 := by
  ext i hi
  by_cases h8 : i < 8
  · simp [h8, hi]
  · have hsum : 8 + (i - 8) = i := by omega
    simp [h8, hsum, hi]

/-- Eight bit steps take the low byte through the table and only shift the rest. -/
theorem reduceByte_eq_romRead_xor (v : Word) :
    reduceByte hw.poly v = romRead hw (v.extractLsb' 0 8) ^^^ v >>> 8 := by
  have hlow : ∀ k < 8, (v >>> 8 <<< 8).getLsbD k = false := fun k hk => by simp [hk]
  calc reduceByte hw.poly v
      = (reduceBit hw.poly)^[8] ((v.extractLsb' 0 8).setWidth 64 ^^^ v >>> 8 <<< 8) := by
        rw [← eq_lowByte_xor_high, reduceByte]
    _ = gen hw.poly (v.extractLsb' 0 8) ^^^ v >>> 8 <<< 8 >>> 8 := by
        rw [iterate_reduceBit_xor, iterate_reduceBit_of_low_zero _ hlow, gen, reduceByte]
    _ = romRead hw (v.extractLsb' 0 8) ^^^ v >>> 8 := by
        rw [romRead_eq_gen, ushiftRight_shiftLeft_ushiftRight]

theorem byteStep_eq_reduceByte (w : Word) (b : Byte) : byteStep hw w b = reduceByte hw.poly (w ^^^ b.setWidth 64) := by
  have hbyte : (b.setWidth 64).extractLsb' 0 8 = b := by
    rw [← BitVec.setWidth_eq_extractLsb' (by decide), BitVec.setWidth_setWidth_of_le _ (by decide), BitVec.setWidth_eq]
  have hrest : b.setWidth 64 >>> 8 = 0#64 := by
    ext i hi
    simp
  rw [reduceByte_eq_romRead_xor, BitVec.extractLsb'_xor, hbyte, BitVec.ushiftRight_xor_distrib, hrest, BitVec.xor_zero,
    byteStep]

/-- Settles O22, which is `byteStep_eq_reduceByte`. -/
theorem byteStepIsEightBitSteps : Obligations.ByteStepIsEightBitSteps := byteStep_eq_reduceByte

/-- In stored form the complement comes out of the shift as ones in the top byte (R96). -/
theorem not_not_ushiftRight (acc : Word) : ~~~(~~~acc >>> 8) = acc >>> 8 ^^^ 0xFF00000000000000#64 := by
  have hones : BitVec.allOnes 64 >>> 8 ^^^ BitVec.allOnes 64 = 0xFF00000000000000#64 := by decide
  rw [← BitVec.xor_allOnes, ← BitVec.xor_allOnes, BitVec.ushiftRight_xor_distrib, BitVec.xor_assoc, hones]

theorem storedUpdate_eq (acc : Word) (b : Byte) :
    storedUpdate hw acc b = romRead hw (acc.extractLsb' 0 8 ^^^ ~~~b) ^^^ acc >>> 8 ^^^ 0xFF00000000000000#64 := by
  have hindex : (~~~acc).extractLsb' 0 8 ^^^ b = acc.extractLsb' 0 8 ^^^ ~~~b := by
    rw [BitVec.extractLsb'_not_of_lt (by decide), ← BitVec.not_xor_left, BitVec.not_xor_right]
  rw [storedUpdate, flipWord_hw, flipWord_hw, byteStep, hindex, BitVec.not_xor_right, not_not_ushiftRight,
    BitVec.xor_assoc]

theorem ingest_cons (c : Config) (acc : Word) (b : Byte) (bytes : List Byte) :
    ingest c acc (b :: bytes) = ingest c (storedUpdate c acc b) bytes := by
  rw [← ingest_singleton, ingest_append, List.singleton_append]

/-- Settles O18: the complement taken out of the byte step, and an ingest cut after its first byte. -/
theorem storedFormUpdate : Obligations.StoredFormUpdate := ⟨storedUpdate_eq, ingest_cons hw⟩

/-- Settles O17: `flip` undoes itself. -/
theorem emptyIngestLeavesAccumulator : Obligations.EmptyIngestLeavesAccumulator :=
  ⟨flipWord_flipWord hw, ingest_nil hw, exec_ingw_zero⟩

/-! ## The catalogued CRC (R102) -/

/-- The catalogue's register is the working form read from the other end. -/
theorem catalogueByte_reverse (reg : Word) (b : Byte) :
    (catalogueByte reg b).reverse = byteStep hw reg.reverse b := by
  rw [catalogueByte, reverse_iterate_shiftOut, reverse_xor, reverse_setWidth_shiftLeft_56, byteStep_eq_reduceByte,
    reduceByte]

theorem foldl_catalogueByte_reverse (bytes : List Byte) (reg : Word) :
    (bytes.foldl catalogueByte reg).reverse = bytes.foldl (byteStep hw) reg.reverse :=
  (List.foldl_hom BitVec.reverse fun reg b => (catalogueByte_reverse reg b).symm).symm

theorem reverse_allOnes (w : Nat) : (BitVec.allOnes w).reverse = BitVec.allOnes w := by
  ext i hi
  rw [BitVec.getElem_reverse, BitVec.getMsbD_allOnes, BitVec.getElem_allOnes, decide_eq_true hi]

/-- Settles O23: the register starts at all ones, which is the working form of `ACC` = 0 and its own reversal. -/
theorem engineEqualsCataloguedCrc : Obligations.EngineEqualsCataloguedCrc := by
  intro bytes
  have hinit : (0xFFFFFFFFFFFFFFFF#64).reverse = flipWord hw 0#64 :=
    (reverse_allOnes 64).trans (flipWord_hw 0#64).symm
  calc ingest hw 0#64 bytes = flipWord hw (bytes.foldl (byteStep hw) (flipWord hw 0#64)) := rfl
    _ = flipWord hw (bytes.foldl catalogueByte 0xFFFFFFFFFFFFFFFF#64).reverse := by
      rw [foldl_catalogueByte_reverse, hinit]
    _ = catalogueCrc bytes := rfl

/-! ## What an ingest never loses (R99, R103) -/

theorem reduceByte_injective : Function.Injective (reduceByte hw.poly) := reduceBit_injective.iterate 8

theorem byteStep_left_injective (b : Byte) : Function.Injective (byteStep hw · b) := fun v w h => by
  simp only [byteStep_eq_reduceByte] at h
  exact (BitVec.xor_left_inj _).1 (reduceByte_injective h)

theorem byteStep_right_injective (w : Word) : Function.Injective (byteStep hw w) := fun a b h => by
  simp only [byteStep_eq_reduceByte] at h
  have hext : a.setWidth 64 = b.setWidth 64 := (BitVec.xor_right_inj _).1 (reduceByte_injective h)
  simpa using congrArg (BitVec.setWidth 8) hext

theorem flipWord_injective (c : Config) : Function.Injective (flipWord c) :=
  Function.LeftInverse.injective (flipWord_flipWord c)

theorem ingest_injective (bytes : List Byte) : Function.Injective (ingest hw · bytes) := by
  induction bytes with
  | nil => exact fun v w h => by simpa using h
  | cons b bytes ih =>
    intro v w h
    simp only [ingest_cons] at h
    exact flipWord_injective hw (byteStep_left_injective b (flipWord_injective hw (ih h)))

/-- Settles O25: every bit step is injective, and so is all that an ingest is made of. -/
theorem ingestIsInjectiveInTheAccumulator : Obligations.IngestIsInjectiveInTheAccumulator := fun bytes _ _ h =>
  ingest_injective bytes h

/-- Settles O24: a flipped bit makes the working form after its byte another one, and the bytes that follow keep the two
apart. -/
theorem singleBitFlipChangesTheResult : Obligations.SingleBitFlipChangesTheResult := by
  intro before after b k hk h
  rw [← ingest_append, ← ingest_append, ingest_cons, ingest_cons] at h
  have hbyte := byteStep_right_injective _ (flipWord_injective hw (ingest_injective after h))
  have hbit : ∀ k < 8, 1#8 <<< k ≠ 0#8 := by decide
  exact hbit k hk ((BitVec.xor_right_inj b).1 (hbyte.symm.trans (BitVec.xor_zero).symm))

end Sys2Proof.Machine
end

section
/-! PROOFS. A host reads the digests back (spec/42_finalize.md rule R118), and the digests of the empty input. -/

namespace Sys2Proof.Machine

/-! ## Base64 (R114, R118) -/

theorem base64Value_base64Char (q : BitVec 6) : base64Value (base64Char q) = some q := by
  revert q
  decide

theorem base64Value_padding : base64Value 0x3D#8 = none := by decide

/-- The four indices of a group of 24 bits, most significant first, make up the group. -/
theorem append_sextets (q : BitVec 24) :
    q.extractLsb' 18 6 ++ q.extractLsb' 12 6 ++ q.extractLsb' 6 6 ++ q.extractLsb' 0 6 = q := by
  simp (disch := decide) only [BitVec.extractLsb'_append_extractLsb'_eq_extractLsb']
  exact BitVec.extractLsb'_eq_self

theorem base64Bytes_sextets (p0 p1 p2 : Byte) :
    base64Bytes ((p0 ++ p1 ++ p2 : BitVec 24).extractLsb' 18 6) ((p0 ++ p1 ++ p2 : BitVec 24).extractLsb' 12 6)
      ((p0 ++ p1 ++ p2 : BitVec 24).extractLsb' 6 6) ((p0 ++ p1 ++ p2 : BitVec 24).extractLsb' 0 6) = [p0, p1, p2] := by
  have h0 : (p0 ++ p1 ++ p2).extractLsb' 16 8 = p0 := by
    rw [BitVec.extractLsb'_append_eq_of_le (by decide), BitVec.extractLsb'_append_eq_of_le (by decide)]
    exact BitVec.extractLsb'_eq_self
  have h1 : (p0 ++ p1 ++ p2).extractLsb' 8 8 = p1 := by
    rw [BitVec.extractLsb'_append_eq_of_le (by decide), BitVec.extractLsb'_append_eq_of_add_le (by decide)]
    exact BitVec.extractLsb'_eq_self
  have h2 : (p0 ++ p1 ++ p2).extractLsb' 0 8 = p2 := by
    rw [BitVec.extractLsb'_append_eq_of_add_le (by decide)]
    exact BitVec.extractLsb'_eq_self
  simp only [base64Bytes, append_sextets, h0, h1, h2]

/-- Decoding gives back a whole group and goes on with what follows it. -/
theorem base64Decode_group_append (p0 p1 p2 : Byte) {rest tail : List Byte} (h : base64Decode rest = some tail) :
    base64Decode (base64Group p0 p1 p2 ++ rest) = some ([p0, p1, p2] ++ tail) := by
  simp only [base64Group, List.cons_append, List.nil_append, base64Decode, base64Value_base64Char, h, base64Bytes_sextets]

/-- A group of two bytes ends in one `=`. -/
theorem base64Decode_padded_group (p0 p1 : Byte) :
    base64Decode ((base64Group p0 p1 0#8).take 3 ++ [0x3D#8]) = some [p0, p1] := by
  have hlast : (p0 ++ p1 ++ 0#8 : BitVec 24).extractLsb' 0 6 = 0#6 := by
    rw [BitVec.extractLsb'_append_eq_of_add_le (by decide)]
    rfl
  have hbytes := base64Bytes_sextets p0 p1 0#8
  rw [hlast] at hbytes
  simp [base64Group, base64Decode, base64Value_base64Char, base64Value_padding, hbytes]

theorem base64Decode_encBase64 (c : Config) (acc : Word) : base64Decode (encBase64 acc) = some (encBuffer c acc) := by
  rw [encBase64, List.append_assoc, List.append_assoc, 
    base64Decode_group_append _ _ _ (base64Decode_group_append _ _ _ (base64Decode_padded_group _ _))]
  rw [encBuffer, Config.accWidth_eq]
  rfl

/-- Settles O31: the groups decode one by one, and the buffer digest is injective. -/
theorem base64DecodesToBuffer : Obligations.Base64DecodesToBuffer :=
  ⟨base64Decode_encBase64 hw, fun acc acc' h =>
    encBuffer_injective hw (Option.some.inj (by rw [← base64Decode_encBase64, h, base64Decode_encBase64]))⟩

/-! ## Hexadecimal and little-endian (R112, R113, R118) -/

theorem hexCharValue_hexChar (d : Nibble) : hexCharValue (hexChar d) = some d.toNat := by
  revert d
  decide

theorem hexDigit_toNat (v : Word) (k : Nat) : (hexDigit v k).toNat = v.toNat / 16 ^ k % 16 := by
  rw [hexDigit, BitVec.extractLsb'_toNat, Nat.shiftRight_eq_div_pow, Nat.pow_mul]

theorem byteLane_toNat (v : Word) (k : Nat) : (byteLane v k).toNat = v.toNat / 256 ^ k % 256 := by
  rw [byteLane, BitVec.extractLsb'_toNat, Nat.shiftRight_eq_div_pow, Nat.pow_mul]

/-- Reading the `n` low digits, most significant first, appends them to the value read so far. -/
theorem readHex_digits (acc : Word) (n v : Nat) :
    readHex v ((List.range n).map fun j => hexChar (hexDigit acc (n - 1 - j))) =
      some (v * 16 ^ n + acc.toNat % 16 ^ n) := by
  induction n generalizing v with
  | zero => simp [readHex, Nat.mod_one]
  | succ n ih =>
    have htail : ∀ j, n + 1 - 1 - (j + 1) = n - 1 - j := by omega
    rw [List.range_succ_eq_map, List.map_cons, List.map_map, readHex, hexCharValue_hexChar]
    simp only [Function.comp_def, Nat.succ_eq_add_one, htail, ih]
    rw [hexDigit_toNat, Nat.mod_pow_succ, Nat.add_sub_cancel, Nat.sub_zero]
    congr 1
    ring

theorem readHex_encHex (c : Config) (acc : Word) : readHex 0 (encHex c acc) = some acc.toNat := by
  have hlt : acc.toNat < 16 ^ (if c.hexPad then c.accWidth / 4 else hexWidth acc) := by
    split
    · simpa using acc.isLt
    · exact lt_pow_hexWidth acc
  rw [encHex, readHex_digits, Nat.mod_eq_of_lt hlt, Nat.zero_mul, Nat.zero_add]

theorem littleEndianValue_concat (bytes : List Byte) (b : Byte) :
    littleEndianValue (bytes ++ [b]) = littleEndianValue bytes + 256 ^ bytes.length * b.toNat := by
  induction bytes with
  | nil => simp [littleEndianValue]
  | cons x xs ih =>
    rw [List.cons_append, littleEndianValue, ih, littleEndianValue, List.length_cons, Nat.pow_succ]
    ring

theorem littleEndianValue_byteLanes (v : Word) (n : Nat) :
    littleEndianValue (byteLanes n v) = v.toNat % 256 ^ n := by
  induction n with
  | zero => rw [Nat.pow_zero, Nat.mod_one]; rfl
  | succ n ih =>
    rw [byteLanes_succ, littleEndianValue_concat, ih, byteLanes_length, byteLane_toNat, Nat.mod_pow_succ]

/-- Settles O32: digit by digit and lane by lane; a digest holds as many of them as the value needs. -/
theorem hexReadsBackAsTheAccumulator : Obligations.HexReadsBackAsTheAccumulator := by
  refine fun c acc => ⟨readHex_encHex c acc, ?_⟩
  rw [encBuffer, littleEndianValue_byteLanes, Config.accWidth_eq]
  exact Nat.mod_eq_of_lt acc.isLt

/-! ## The digests of zero -/

theorem encHex_zero : encHex hw 0#64 = [0x30#8] := by decide

theorem encBase64_zero : encBase64 0#64 = List.replicate 11 0x41#8 ++ [0x3D#8] := by decide

theorem encHex_padded_zero : encHex { hw with hexPad := true } 0#64 = List.replicate 16 0x30#8 := by decide

/-- Settles O33: the three digests of zero, each by its encoder. -/
theorem emptyInputHasTheIdentityDigest : Obligations.EmptyInputHasTheIdentityDigest := by
  intro s hacc
  have hacc : s.acc = 0#64 := hacc
  refine ⟨⟨_, exec_fin s 0, ?_⟩, ⟨_, exec_fin s 1, ?_⟩, ⟨_, exec_fin s 2, ?_⟩, ?_⟩
  · rw [writeOut_out, writeOut_outLen, hacc, finalize_buffer (by decide) (by decide), encBuffer_zero,
      fillOut_replicate_zero]
    exact ⟨rfl, rfl⟩
  · rw [writeOut_out, writeOut_outLen, hacc, BitVec.ofNat_eq_ofNat, finalize_hex, encHex_zero]
    exact ⟨rfl, rfl⟩
  · rw [writeOut_out, writeOut_outLen, hacc, BitVec.ofNat_eq_ofNat, finalize_base64, encBase64_zero]
    exact ⟨rfl, rfl⟩
  · rw [hacc]
    exact encHex_padded_zero

end Sys2Proof.Machine
end

section
/-! PROOFS. The statements about one step: its frame, its completion, the shape of the output buffer, reset beside CLEAR
(spec/10_state.md rules R26, R27, spec/20_memory.md rule R49, spec/60_exceptions.md, spec/70_reset_and_hazards.md). -/

namespace Sys2Proof.Machine

/-! ## The shape of the output buffer (R26, R27) -/

theorem writeOut_outputOk (s : State) {bytes : List Byte} (h : bytes.length ≤ 16) : (s.writeOut bytes).outputOk := by
  refine ⟨by rwa [writeOut_outLen_toNat s h], fun k hk => ?_⟩
  rw [writeOut_out_getElem s h, if_neg (Nat.not_lt.2 hk)]
  rfl

theorem outputOk_of_zero {s : State} (hout : s.out = Vector.replicate 16 0#8) (hlen : s.outLen = 0#8) : s.outputOk := by
  refine ⟨by rw [hlen]; decide, fun k _ => ?_⟩
  simp only [hout, Vector.getElem_replicate]
  rfl

/-- The shape is one of `OUT` and `OUT_LEN` alone. -/
theorem outputOk_congr {s t : State} (hout : t.out = s.out) (hlen : t.outLen = s.outLen) (h : s.outputOk) : t.outputOk := by
  simpa only [State.outputOk, hout, hlen] using h

theorem exec_outputOk {i : Instr} {s t : State} (hs : s.outputOk) (h : exec i s = .next t) : t.outputOk := by
  rcases exec_keeps_output h with ⟨sel, rfl⟩ | ⟨idx, rfl⟩ | ⟨hout, hlen⟩
  · cases h
    exact writeOut_outputOk s (finalize_length_le hw sel s.acc)
  · cases h
    exact writeOut_outputOk s (by simp)
  · exact outputOk_congr hout hlen hs

/-- Settles O48: a result has the shape, a reset has it, and no other input touches the output buffer. -/
theorem outputShapeIsKeptByEveryStep : Obligations.OutputShapeIsKeptByEveryStep := by
  intro s t hs h
  rcases step_cases h with ⟨_, rfl⟩ | ⟨_, _, rest, _, hexec⟩ | ⟨addr, rest, _, rfl⟩ | ⟨rest, _, rfl⟩
  · exact hs
  · exact exec_outputOk (s := { s with pending := rest }) (outputOk_congr rfl rfl hs) hexec
  · exact outputOk_congr rfl rfl hs
  · exact outputOk_of_zero (resetBlock_out _) (resetBlock_outLen _)

/-- Settles O49: the reset output buffer is all zero. -/
theorem resetHasTheOutputShape : Obligations.ResetHasTheOutputShape := outputOk_of_zero reset_out reset_outLen

/-! ## Every step completes (R49, R140, R155) -/

theorem step_idle {s : State} (hp : s.pending = []) : step s = .next s := by
  unfold step
  rw [hp]

theorem step_completes (s : State) : ∃ t, step s = .next t := by
  cases hp : s.pending with
  | nil => exact ⟨s, step_idle hp⟩
  | cons e rest =>
    rw [step_of_pending hp]
    exact present_completes e _

/-- Settles O45, by `decode_wf` and `step_of_pending`. -/
theorem stepRunsTheDecodedCommand : Obligations.StepRunsTheDecodedCommand := fun _ cmd data _ hp =>
  ⟨decode_wf cmd data, step_of_pending hp⟩

/-- Settles O46: a command completes whatever its operands, a step whatever its input. -/
theorem everyStepCompletes : Obligations.EveryStepCompletes := ⟨exec_completes, step_completes⟩

/-- Settles O47, which is `step_idle`. -/
theorem idleBlockHoldsItsState : Obligations.IdleBlockHoldsItsState := fun _ => step_idle

/-! ## What a command leaves unchanged -/

/-- Settles O53: these commands end in a `setAcc`, which no host address shows. -/
theorem ingestAndClearFrame : Obligations.IngestAndClearFrame := by
  intro i s t hi h
  obtain ⟨v, rfl⟩ : ∃ v, t = s.setAcc v := by
    rcases hi with rfl | ⟨b, rfl⟩ | ⟨n, data, rfl, hn⟩
    · cases h
      exact ⟨_, rfl⟩
    · cases h
      exact ⟨_, rfl⟩
    · rw [exec_ingw_legal s n data hn] at h
      cases h
      exact ⟨_, rfl⟩
  exact ⟨setAcc_out s v, setAcc_outLen s v, setAcc_ill s v, setAcc_pending s v, setAcc_readLog s v,
    hostRead_congr (setAcc_out s v) (setAcc_outLen s v) (setAcc_ill s v)⟩

/-- From `STATUS` on the read map shows `STATUS.ILL` alone (R45). -/
theorem hostRead_congr_ill {s t : State} (hill : s.ill = t.ill) {addr : Byte} (haddr : 0x11 ≤ addr.toNat) :
    hostRead s addr = hostRead t addr := by
  rcases Nat.lt_or_ge 0x11 addr.toNat with hgt | hle
  · rw [hostRead_reserved s addr hgt, hostRead_reserved t addr hgt]
  · obtain rfl : addr = 0x11#8 := BitVec.eq_of_toNat_eq (Nat.le_antisymm hle haddr)
    rw [hostRead_status, hostRead_status, status_eq, status_eq, hill]

/-- At every address but that of `STATUS` the read map shows the output buffer alone (R45). -/
theorem hostRead_congr_output {s t : State} (hout : s.out = t.out) (hlen : s.outLen = t.outLen) {addr : Byte}
    (haddr : addr ≠ 0x11#8) : hostRead s addr = hostRead t addr := by
  simp only [hostRead, hostReadOf, hout, hlen, if_neg haddr]

/-- Settles O54: FIN and TBLRD end in a `writeOut`. -/
theorem finAndTblrdFrame : Obligations.FinAndTblrdFrame := by
  intro i s t hi h
  obtain ⟨bytes, rfl⟩ : ∃ bytes, t = s.writeOut bytes := by
    rcases hi with ⟨sel, rfl⟩ | ⟨idx, rfl⟩ <;> cases h <;> exact ⟨_, rfl⟩
  exact ⟨writeOut_acc s bytes, writeOut_ill s bytes, writeOut_pending s bytes, writeOut_readLog s bytes, fun addr =>
    hostRead_congr_ill (writeOut_ill s bytes)⟩

/-- Settles O55: these commands leave the state but for `STATUS.ILL`. -/
theorem nopAndIllegalFrame : Obligations.NopAndIllegalFrame := by
  intro i s t hi h
  obtain ⟨b, rfl, hnop⟩ : ∃ b, t = { s with ill := b } ∧ (i = .nop → b = s.ill) := by
    rcases hi with rfl | hi | ⟨n, data, rfl, hn⟩
    · cases h
      exact ⟨s.ill, rfl, fun _ => rfl⟩
    · rw [exec_illegalWord s hi] at h
      cases h
      exact ⟨true, rfl, by rintro rfl; cases hi⟩
    · rw [exec_ingw_illegal s n data hn] at h
      cases h
      exact ⟨true, rfl, by simp⟩
  exact ⟨rfl, rfl, rfl, rfl, rfl, hnop, fun _ haddr =>
    hostRead_congr_output (s := { s with ill := b }) (t := s) rfl rfl haddr⟩

/-- Settles O38, by the one law of all illegal commands. -/
theorem illegalIngwRowsSetIllOnly : Obligations.IllegalIngwRowsSetIllOnly := fun _ s =>
  ⟨exec_illegalWord s rfl, exec_illegalWord s rfl, exec_illegalWord s rfl⟩

/-! ## Reset beside CLEAR (R131, R160, R161) -/

/-- Settles O42: CLEAR ends in a `setAcc`, reset and power cycle in `resetBlock`. -/
theorem resetAndClearDifferOnlyInOutputAndIll : Obligations.ResetAndClearDifferOnlyInOutputAndIll := by
  intro s rest cmd data hcmd
  have hclear : decode cmd data = .clear := decode_op1 cmd data (cmdOp_of_row hcmd (by decide))
  have hcommand : step { s with pending := .command cmd data :: rest } =
      .next ({ s with pending := rest }.setAcc 0#64) := by
    rw [step_cons, present_command, hclear, exec_clear]
  exact ⟨_, _, hcommand, step_cons s .reset rest, step_cons s .powerCycle rest, rfl, rfl, rfl, rfl, rfl, rfl, rfl, rfl, rfl,
    rfl, rfl⟩

/-! ## The parameters (R12) -/

/-- An INGW word is illegal where its count is above `INGW_MAX` (R63, R66). -/
theorem decodeOf_op3_legal_iff (c : Config) {cmd : CmdWord} (data : Word) (hop : cmdOp cmd = 3#4) :
    (decodeOf c cmd data).illegalWord = none ↔ (cmdA cmd).toNat ≤ c.ingwMax := by
  by_cases hn : (cmdA cmd).toNat ≤ c.ingwMax
  · simp [decodeOf, hop, hn, Instr.illegalWord]
  · simp [decodeOf, hop, hn, decodeIllegalIngw_illegalWord]

/-- Settles O60: the values and the meanings are the definitions, the sizes those of the storage types, and the fixed names
are the machine of a configuration at `hw`. -/
theorem parametersDetermineTheBlock : Obligations.ParametersDetermineTheBlock := by
  refine ⟨⟨rfl, rfl, rfl, rfl, romImage_toList, rfl, rfl, rfl, rfl, rfl, rfl, rfl, rfl, rfl, rfl⟩, fun c => ?_,
    fun _ _ => rfl, fun i s => (execOf_hw i s).symm, fun s => (stepOf_hw s).symm, rfl⟩
  obtain ⟨hacc, htable, hdata, hcmd, hout⟩ := storage_types c
  exact ⟨hacc, htable, hdata, hcmd, hout, rfl, fun _ => rfl, fun _ _ => rfl, fun _ data => decodeOf_op3_legal_iff c data,
    fun _ => ⟨rfl, fun _ => rfl, fun _ _ => rfl, fun _ => rfl⟩⟩

end Sys2Proof.Machine
end

section
/-! PROOFS. The statements about sequences of inputs and several blocks (spec/10_state.md rule R22, spec/20_memory.md
rules R49, R50, spec/41_ingest.md rule R99, spec/60_exceptions.md rule R153, spec/70_reset_and_hazards.md rules R164, R170). -/

namespace Sys2Proof.Machine

/-! ## The stream of a sequence of inputs (R99, R50) -/

theorem streamOf_cons (e : PortEvent) (es : List PortEvent) : streamOf (e :: es) = streamOf [e] ++ streamOf es := by
  simp [streamOf]

/-- The stream is the chunks of the inputs one after the other. -/
theorem streamOf_eq_flatten (es : List PortEvent) : streamOf es = (es.map fun e => streamOf [e]).flatten := by
  induction es with
  | nil => rfl
  | cons e es ih => rw [streamOf_cons, ih, List.map_cons, List.flatten_cons]

theorem accAfter_of_keepsStream {e : PortEvent} (he : keepsStream e = true) (acc : Word) :
    accAfter acc e = ingest hw acc (streamOf [e]) := by
  cases e with
  | command cmd data =>
    have hne : decode cmd data ≠ .clear := by simpa [keepsStream] using he
    simp [accAfter, hne, streamOf]
  | read addr => exact (ingest_nil hw acc).symm
  | reset | powerCycle => cases he

theorem foldl_accAfter_of_keepsStream {es : List PortEvent} (hes : ∀ e ∈ es, keepsStream e = true) (acc : Word) :
    es.foldl accAfter acc = ingest hw acc (streamOf es) := by
  induction es generalizing acc with
  | nil => exact (ingest_nil hw acc).symm
  | cons e es ih =>
    obtain ⟨he, hes⟩ := List.forall_mem_cons.1 hes
    rw [List.foldl_cons, accAfter_of_keepsStream he, ih hes, ingest_append, ← streamOf_cons]

theorem runPort_stream {es : List PortEvent} (hes : ∀ e ∈ es, keepsStream e = true) (s : State) :
    ∃ t, runPort es s = .next t ∧ t.acc = ingest hw s.acc (streamOf es) := by
  rw [← foldl_accAfter_of_keepsStream hes]
  exact runPort_acc es s

/-- Settles O20: each input ingests its chunk, and the ingests in a row are one. -/
theorem anyCommandSplitComputesTheStreamCrc : Obligations.AnyCommandSplitComputesTheStreamCrc := fun _ s hes =>
  runPort_stream (List.all_eq_true.1 hes) s

section
variable {α β : Type} {xs ys zs : List α}

theorem Interleaves.map (f : α → β) (h : Interleaves xs ys zs) : Interleaves (xs.map f) (ys.map f) (zs.map f) := by
  induction h with
  | nil => exact .nil
  | left x _ ih => exact .left (f x) ih
  | right y _ ih => exact .right (f y) ih

theorem Interleaves.forall_mem {p : α → Prop} (h : Interleaves xs ys zs) (hxs : ∀ x ∈ xs, p x) (hys : ∀ y ∈ ys, p y) :
    ∀ z ∈ zs, p z := by
  induction h with
  | nil => exact hxs
  | left x _ ih =>
    obtain ⟨hx, hxs⟩ := List.forall_mem_cons.1 hxs
    exact List.forall_mem_cons.2 ⟨hx, ih hxs hys⟩
  | right y _ ih =>
    obtain ⟨hy, hys⟩ := List.forall_mem_cons.1 hys
    exact List.forall_mem_cons.2 ⟨hy, ih hxs hys⟩

end

/-- Settles O21: an interleaving of inputs interleaves their chunks, and what is presented is one sequence. -/
theorem interleavedHostsComputeTheInterleavedStream : Obligations.InterleavedHostsComputeTheInterleavedStream := by
  intro xs ys zs s h hxs hys
  obtain ⟨t, ht, hacc⟩ := runPort_stream (h.forall_mem (List.all_eq_true.1 hxs) (List.all_eq_true.1 hys)) s
  exact ⟨_, t, rfl, h.map _, ht, by rw [hacc, streamOf_eq_flatten]⟩

/-! ## Host reads after other inputs (R49) -/

theorem runPort_pending {es : List PortEvent} {s t : State} (h : runPort es s = .next t) : t.pending = [] := by
  induction es generalizing s with
  | nil => cases h; rfl
  | cons e es ih =>
    obtain ⟨u, hu⟩ := present_completes e s
    exact ih ((runPort_cons_of_present hu).symm.trans h)

/-- Reads one after the other all answer from the state they find. -/
theorem runPort_reads (addrs : List Byte) (s : State) :
    runPort (addrs.map .read) s =
      .next { s with pending := [], readLog := s.readLog ++ addrs.map fun addr => (addr, hostRead s addr) } := by
  induction addrs generalizing s with
  | nil => simp
  | cons addr addrs ih =>
    rw [List.map_cons, runPort_cons_of_present (present_read addr s), ih]
    simp only [hostRead_answerRead, answerRead_readLog, List.append_assoc, List.map_cons, List.singleton_append]
    rfl

/-- Settles O44: the run is cut before the read, which finds nothing else pending. -/
theorem hostReadSeesEveryEarlierInput : Obligations.HostReadSeesEveryEarlierInput := by
  intro es addr s
  obtain ⟨t, ht⟩ := runPort_completes es s
  refine ⟨t, ht, ?_⟩
  rw [runPort_append ht, runPort_singleton (present_read addr t), ← runPort_pending ht]
  rfl

/-! ## `ACC` is seen through FIN alone (R22) -/

/-- From another `ACC` every command but FIN ends in the same state but for `ACC`. -/
theorem exec_setAcc {i : Instr} {s t : State} (hi : ∀ sel, i ≠ .fin sel) (h : exec i s = .next t) (v : Word) :
    ∃ w, exec i (s.setAcc v) = .next (t.setAcc w) := by
  rcases exec_cases h with ⟨rfl, rfl⟩ | ⟨rfl, rfl⟩ | ⟨b, rfl, rfl⟩ | ⟨n, data, rfl, hn, rfl⟩ | ⟨n, data, rfl, hn, rfl⟩ |
    ⟨sel, hfin, _⟩ | ⟨idx, rfl, rfl⟩ | ⟨hill, rfl⟩
  · exact ⟨v, rfl⟩
  · exact ⟨0#64, rfl⟩
  · exact ⟨_, exec_ingb _ b⟩
  · exact ⟨_, exec_ingw_legal _ n data hn⟩
  · exact ⟨v, exec_ingw_illegal _ n data hn⟩
  · exact absurd hfin (hi sel)
  · exact ⟨v, exec_tblrd _ idx⟩
  · exact ⟨v, exec_illegalWord _ hill⟩

theorem present_setAcc {e : PortEvent} {s t : State} (he : isFin e = false) (h : present e s = .next t) (v : Word) :
    ∃ w, present e (s.setAcc v) = .next (t.setAcc w) := by
  cases e with
  | command cmd data =>
    have hop : cmdOp cmd ≠ 4#4 := by simpa [isFin] using he
    exact exec_setAcc (fun sel hd => hop (cmdOp_of_decode_fin hd)) h v
  | read addr => cases h; exact ⟨v, rfl⟩
  | reset | powerCycle => cases h; exact ⟨0#64, rfl⟩

theorem runPort_setAcc {es : List PortEvent} (hes : ∀ e ∈ es, isFin e = false) (s : State) (v : Word) :
    ∃ t w, runPort es s = .next t ∧ runPort es (s.setAcc v) = .next (t.setAcc w) := by
  induction es generalizing s v with
  | nil => exact ⟨_, v, rfl, rfl⟩
  | cons e es ih =>
    obtain ⟨he, hes⟩ := List.forall_mem_cons.1 hes
    obtain ⟨t, ht⟩ := present_completes e s
    obtain ⟨w, hw⟩ := present_setAcc he ht v
    rw [runPort_cons_of_present ht, runPort_cons_of_present hw]
    exact ih hes t w

/-- Settles O56: the two runs end in the same state but for `ACC`. -/
theorem accumulatorIsVisibleOnlyThroughFin : Obligations.AccumulatorIsVisibleOnlyThroughFin := by
  intro es s v hes
  obtain ⟨t, w, ht, hu⟩ := runPort_setAcc (by simpa using hes) s v
  exact ⟨t, t.setAcc w, ht, hu, rfl, rfl, rfl, rfl⟩

/-! ## The output is a snapshot (R170) -/

/-- Settles O57: no input of the run writes `OUT` or `OUT_LEN`, which are all that the host reads there. -/
theorem outputIsASnapshot : Obligations.OutputIsASnapshot := by
  intro es s hes
  have hno : ∀ e ∈ es, writesOut e = false := by simpa using hes
  obtain ⟨t, ht, hobs⟩ := runPort_keeps (obs := fun s => (s.out, s.outLen)) (fun _ _ => rfl)
    (fun e he _ _ h => Prod.ext (present_keeps_output (hno e he) h).1 (present_keeps_output (hno e he) h).2) s
  obtain ⟨hout, hlen⟩ := Prod.mk.inj hobs
  refine ⟨t, ht, fun addr haddr => hostRead_congr_output hout hlen ?_⟩
  rintro rfl
  exact absurd haddr (by decide)

/-! ## The procedure for one checksum (R164) -/

/-- An ingest command does nothing but ingest its bytes. -/
theorem present_ingest {cmd : CmdWord} {data : Word}
    (hd : (∃ b, decode cmd data = .ingb b) ∨ ∃ n d, decode cmd data = .ingw n d) (s : State) :
    present (.command cmd data) s = .next (s.setAcc (ingest hw s.acc (streamOf [.command cmd data]))) := by
  rcases hd with ⟨b, hd⟩ | ⟨n, d, hd⟩
  · simp [hd, streamOf, ingestedBytes]
  · simp [hd, streamOf, ingestedBytes, exec_ingw_legal _ n d (decode_ingw_count_le hd)]

theorem runPort_ingests {es : List PortEvent} (hes : ∀ e ∈ es, ∃ cmd data, e = .command cmd data ∧
    ((∃ b, decode cmd data = .ingb b) ∨ ∃ n d, decode cmd data = .ingw n d)) (s : State) :
    runPort es s = .next { s with acc := ingest hw s.acc (streamOf es), pending := [] } := by
  induction es generalizing s with
  | nil => simp [streamOf]
  | cons e es ih =>
    obtain ⟨⟨cmd, data, rfl, hd⟩, htail⟩ := List.forall_mem_cons.1 hes
    rw [runPort_cons_of_present (present_ingest hd s), ih htail, setAcc_acc, ingest_append, ← streamOf_cons]
    rfl

/-- The addresses that the procedure reads. -/
def checksumAddrs : List Byte := 0x10#8 :: (List.range 16).map (BitVec.ofNat 8) ++ [0x11#8]

theorem checksumInputs_eq (sel : Nibble) (es : List PortEvent) :
    checksumInputs sel es =
      .command 0x1000#16 0 :: (es ++ .command (0x4000#16 ||| sel.setWidth 16 <<< 8) 0 :: checksumAddrs.map .read) := by
  simp [checksumInputs, checksumAddrs, Function.comp_def]

theorem present_clearWord (s : State) : present (.command 0x1000#16 0) s = .next (s.setAcc 0#64) := by
  rw [present_command, decode_op1 _ _ (by decide), exec_clear]

theorem present_finWord (sel : Nibble) (s : State) :
    present (.command (0x4000#16 ||| sel.setWidth 16 <<< 8) 0) s = .next (s.writeOut (finalize hw sel s.acc)) := by
  rw [present_command, decode_finWord, exec_fin]

theorem hostRead_writeOut_byte (s : State) (bytes : List Byte) {k : Nat} (hk : k < 16) :
    hostRead (s.writeOut bytes) (BitVec.ofNat 8 k) = bytes.getD k 0#8 := by
  have haddr : (BitVec.ofNat 8 k).toNat = k := by
    rw [BitVec.toNat_ofNat]
    omega
  rw [hostRead_out _ _ (by omega), writeOut_out, fillOut_getElem]
  simp only [haddr]

/-- Where no command was illegal, the addresses answer what the procedure is to see of a result. -/
theorem map_hostRead_checksumAddrs {s : State} (hs : s.safe) (digest : List Byte) :
    checksumAddrs.map (fun addr => (addr, hostRead (s.writeOut digest) addr)) = checksumAnswers digest := by
  have hstatus : hostRead (s.writeOut digest) 0x11#8 = 0x00#8 := by
    rw [hostRead_status, status_eq, writeOut_ill, hs, if_neg Bool.false_ne_true]
  have hbytes : (List.range 16).map (fun k => (BitVec.ofNat 8 k, hostRead (s.writeOut digest) (BitVec.ofNat 8 k))) =
      (List.range 16).map fun k => (BitVec.ofNat 8 k, digest.getD k 0#8) :=
    List.map_congr_left fun k hk => by rw [hostRead_writeOut_byte s digest (List.mem_range.1 hk)]
  rw [checksumAddrs, List.map_append, List.map_cons, List.map_map, Function.comp_def, hbytes, List.map_singleton,
    hstatus, hostRead_outLen, writeOut_outLen]
  rfl

/-- Settles O58: CLEAR, the ingests, FIN and the reads, one after the other. -/
theorem checksumProcedureReadsTheDigest : Obligations.ChecksumProcedureReadsTheDigest := by
  intro sel es s hs hes
  obtain ⟨u, hu, hacc, hsafe, hlog⟩ : ∃ u, runPort es (s.setAcc 0#64) = .next u ∧
      u.acc = ingest hw 0#64 (streamOf es) ∧ u.safe ∧ u.readLog = s.readLog :=
    ⟨_, runPort_ingests hes _, rfl, hs, rfl⟩
  have hrun : runPort (checksumInputs sel es) s =
      runPort (checksumAddrs.map .read) (u.writeOut (finalize hw sel u.acc)) := by
    rw [checksumInputs_eq, runPort_cons_of_present (present_clearWord s), runPort_append hu,
      runPort_cons_of_present (present_finWord sel u)]
  refine ⟨_, hrun.trans (runPort_reads _ _), ?_⟩
  simp only [map_hostRead_checksumAddrs hsafe, writeOut_readLog, hlog, hacc]
  rfl

/-! ## Several blocks (R153) -/

theorem runSteps_succ {s t : State} (h : step s = .next t) (k : Nat) : runSteps (k + 1) s = runSteps k t := by
  rw [runSteps, h]

theorem runSteps_add {m : Nat} {s t : State} (h : runSteps m s = .next t) (n : Nat) :
    runSteps (m + n) s = runSteps n t := by
  induction m generalizing s with
  | zero => cases h; rw [Nat.zero_add]
  | succ m ih =>
    obtain ⟨u, hu⟩ := step_completes s
    rw [runSteps_succ hu] at h
    rw [Nat.add_right_comm, runSteps_succ hu, ih h]

theorem stepBlock_of_step {k : Nat} {blocks : List State} {s t : State} (hs : blocks[k]? = some s)
    (ht : step s = .next t) : stepBlock k blocks = .next (blocks.set k t) := by
  rw [stepBlock, hs]
  simp only [ht]

theorem stepBlock_of_none {k : Nat} {blocks : List State} (h : blocks[k]? = none) :
    stepBlock k blocks = .next blocks := by
  rw [stepBlock, h]

/-- A step of the schedule is a step of the block it names and none of any other. -/
theorem stepBlock_next (k : Nat) (blocks : List State) :
    ∃ blocks', stepBlock k blocks = .next blocks' ∧ blocks'.length = blocks.length ∧
      ∀ (j : Nat) (s : State), blocks[j]? = some s → ∃ t, blocks'[j]? = some t ∧ runSteps ([k].count j) s = .next t := by
  cases hk : blocks[k]? with
  | none =>
    refine ⟨blocks, stepBlock_of_none hk, rfl, fun j s hs => ⟨s, hs, ?_⟩⟩
    have hne : k ≠ j := by
      rintro rfl
      cases hk.symm.trans hs
    rw [List.count_singleton, if_neg (by simpa using hne), runSteps]
  | some u =>
    obtain ⟨v, hv⟩ := step_completes u
    refine ⟨blocks.set k v, stepBlock_of_step hk hv, List.length_set, fun j s hs => ?_⟩
    rcases eq_or_ne k j with rfl | hne
    · obtain rfl : u = s := Option.some.inj (hk.symm.trans hs)
      obtain ⟨hlt, _⟩ := List.getElem?_eq_some_iff.1 hk
      exact ⟨v, List.getElem?_set_self hlt, by rw [List.count_singleton_self, runSteps_succ hv, runSteps]⟩
    · exact ⟨s, (List.getElem?_set_ne hne).trans hs, by rw [List.count_singleton, if_neg (by simpa using hne), runSteps]⟩

/-- Settles O59: what one step of the schedule does to every block, and the runs one after the other. -/
theorem blocksAreIndependent : Obligations.BlocksAreIndependent := by
  intro schedule
  induction schedule with
  | nil => exact fun blocks => ⟨blocks, rfl, rfl, fun k s hs => ⟨s, hs, rfl⟩⟩
  | cons k ks ih =>
    intro blocks
    obtain ⟨mid, hmid, hlen, hstep⟩ := stepBlock_next k blocks
    obtain ⟨blocks', hrun, hlen', hsteps⟩ := ih mid
    refine ⟨blocks', by rw [runBlocks, hmid]; exact hrun, hlen'.trans hlen, fun j s hs => ?_⟩
    obtain ⟨t, ht, hst⟩ := hstep j s hs
    obtain ⟨u, hu, htu⟩ := hsteps j t ht
    refine ⟨u, hu, ?_⟩
    rw [← List.singleton_append, List.count_append, runSteps_add hst, htu]

end Sys2Proof.Machine
end
